-- ==== Sys2Proof/Word.lean ====
section
/-! DEFINITION. The word types of the block: the 64-bit packed word, its 4-bit digits and slot indices, the 11-bit
control word (00_scope.md R7, 10_state.md R16, 30_encoding.md R43), and one byte of a host's memory. -/

namespace Sys2Proof

/-- A packed digit value: 64 bits, sixteen 4-bit slots (R7). -/
abbrev Word := BitVec 64

/-- The contents of one slot (R7, R10). -/
abbrev Digit := BitVec 4

/-- The value of one index port, unsigned 0..15 (R16). -/
abbrev SlotIndex := BitVec 4

/-- The control word `CW` (R43). -/
abbrev ControlWord := BitVec 11

/-- One byte of a host's memory; the block itself never sees bytes (R31). -/
abbrev Byte := BitVec 8

end Sys2Proof
end

