-- ==== Sys2Proof/Syntax.lean ====
section
/-! DEFINITION. The four operations of the block (30_encoding.md R46), with the operand fields of the control word
(R44). The two data words travel beside the control word and are port values, not fields (R43, R44). -/

namespace Sys2Proof

/-- One operation of the block, with its carry-in (or borrow-in) and its digit range, in the order of the fields of
`CW[8:0]` (R44). -/
inductive Instr where
  /-- `ADD.X`, hexadecimal add with carry (R77). -/
  | addX (carryIn : Bool) (highIndex lowIndex : SlotIndex)
  /-- `SUB.X`, hexadecimal subtract with borrow (R79). -/
  | subX (carryIn : Bool) (highIndex lowIndex : SlotIndex)
  /-- `ADD.D`, decimal (BCD) add with carry (R78). -/
  | addD (carryIn : Bool) (highIndex lowIndex : SlotIndex)
  /-- `SUB.D`, decimal (BCD) subtract with borrow (R80). -/
  | subD (carryIn : Bool) (highIndex lowIndex : SlotIndex)
deriving DecidableEq, Repr

end Sys2Proof
end

