-- ==== Sys2Proof/WellFormed.lean ====
section
/-! DEFINITION. When an operation is well formed (10_state.md R18): its digit range is not inverted. -/

namespace Sys2Proof

/-- The `decimal_mode` bit that selects the operation (30_encoding.md R46). -/
def Instr.decimalMode : Instr → Bool
  | .addX _ _ _ => false
  | .subX _ _ _ => false
  | .addD _ _ _ => true
  | .subD _ _ _ => true

/-- The `subtract` bit that selects the operation (R46). -/
def Instr.subtract : Instr → Bool
  | .addX _ _ _ => false
  | .subX _ _ _ => true
  | .addD _ _ _ => false
  | .subD _ _ _ => true

/-- The carry-in (borrow-in) field (R44). -/
def Instr.carryIn : Instr → Bool
  | .addX c _ _ => c
  | .subX c _ _ => c
  | .addD c _ _ => c
  | .subD c _ _ => c

/-- The field `high_index` (R44). -/
def Instr.highIndex : Instr → SlotIndex
  | .addX _ h _ => h
  | .subX _ h _ => h
  | .addD _ h _ => h
  | .subD _ h _ => h

/-- The field `low_index` (R44). -/
def Instr.lowIndex : Instr → SlotIndex
  | .addX _ _ l => l
  | .subX _ _ l => l
  | .addD _ _ l => l
  | .subD _ _ l => l

/-- Well formed: `low_index <= high_index` (R18); every combination of the other fields is well formed. -/
abbrev Instr.WellFormed (i : Instr) : Prop := i.lowIndex.toNat ≤ i.highIndex.toNat

end Sys2Proof
end

