-- ==== Sys2Proof/Decode.lean ====
section
/-! DEFINITION. The control word: its fields (30_encoding.md R44, R45), the decoder over the four opcodes (R46) with
the reserved words rejected by name (R47), and the encoder (R44, R49). -/

namespace Sys2Proof

/-- Why a control word is no operation. -/
inductive DecodeError where
  /-- `CW[3:0] > CW[7:4]`: a reserved control word (R47). Safe: nothing is computed for it. -/
  | invertedRange
deriving DecidableEq, Repr

/-- `CW[3:0]` (R45). -/
def cwLowIndex (cw : ControlWord) : SlotIndex := cw.extractLsb' 0 4

/-- `CW[7:4]` (R45). -/
def cwHighIndex (cw : ControlWord) : SlotIndex := cw.extractLsb' 4 4

/-- `CW[8]` (R45). -/
def cwCarryIn (cw : ControlWord) : Bool := cw.getLsbD 8

/-- `CW[9]` (R45). -/
def cwSubtract (cw : ControlWord) : Bool := cw.getLsbD 9

/-- `CW[10]` (R45). -/
def cwDecimalMode (cw : ControlWord) : Bool := cw.getLsbD 10

/-- The operation that a mode pair selects (R46). -/
def selectOperation (decimalMode subtract carryIn : Bool) (highIndex lowIndex : SlotIndex) : Instr :=
  match decimalMode, subtract with
  | false, false => .addX carryIn highIndex lowIndex
  | false, true => .subX carryIn highIndex lowIndex
  | true, false => .addD carryIn highIndex lowIndex
  | true, true => .subD carryIn highIndex lowIndex

/-- The operation of a control word (R46), or the name of the reason why it is reserved (R47). There is one format and
no length to decode (R48). -/
def decode (cw : ControlWord) : Except DecodeError Instr :=
  if (cwHighIndex cw).toNat < (cwLowIndex cw).toNat then .error .invertedRange
  else .ok (selectOperation (cwDecimalMode cw) (cwSubtract cw) (cwCarryIn cw) (cwHighIndex cw) (cwLowIndex cw))

/-- Is this control word reserved (R47)? -/
def isReserved (cw : ControlWord) : Bool :=
  match decode cw with
  | .ok _ => false
  | .error _ => true

/-- The opcode `CW[10:9]` of an operation (the table of R46). -/
def opcode : Instr → BitVec 2
  | .addX _ _ _ => 0b00#2
  | .subX _ _ _ => 0b01#2
  | .addD _ _ _ => 0b10#2
  | .subD _ _ _ => 0b11#2

/-- The control word of an operation: the opcode, the carry-in and the two indices, most significant first (R44). -/
def encode (i : Instr) : ControlWord :=
  opcode i ++ BitVec.ofBool i.carryIn ++ i.highIndex ++ i.lowIndex

/-- The operation in a number whose low `nbits` bits hold a control word in bits 10..0 (R44); a number with a bit
above bit 10 holds no control word (log entry 9). -/
def decodeTableWord (nbits w : Nat) : Option Instr :=
  let image := w % 2 ^ nbits
  if image < 2 ^ 11 then
    match decode (BitVec.ofNat 11 image) with
    | .ok i => some i
    | .error _ => none
  else none

end Sys2Proof
end

