-- ==== Sys2Proof/Config.lean ====
section
/-! DEFINITION. What is fixed for one implementation, and the free values (00_scope.md R8, 92_eei_decisions.md). -/

namespace Sys2Proof

/-- The two values of the open parameter `host_byte_order` (20_memory.md R31, D10). -/
inductive ByteOrder where
  | little
  | big
deriving DecidableEq, Repr, Inhabited

namespace Config

/-- The open parameter `host_byte_order`: a property of the host's memory, no value chosen (R31, D10; log entry 8). -/
opaque hostByteOrder : ByteOrder

/-- The free digits of a strict-BCD draw, one word for each draw (D4, U1; log entry 7). DESIGN CHOICE, safe. -/
opaque drawWord : Nat → Word

/-- The free carry out of a strict-BCD draw (D4, U1; log entry 7). DESIGN CHOICE, safe. -/
opaque drawCarry : Nat → Bool

end Config
end Sys2Proof
end

