-- ==== Sys2Proof/Machine/State.lean ====
section
/-! DEFINITION. The ports of the block (10_state.md R16, R17), the state that holds one transaction, the reasons a
step can stop, and the state after reset. The block itself keeps nothing from one transaction to the next (R15). -/

namespace Sys2Proof.Machine

/-- The input ports (R16). Every combination of values is well formed except an inverted range (R18). -/
structure Inputs where
  /-- 1 = BCD digits with decimal correction, 0 = hexadecimal digits. -/
  decimalMode : Bool
  /-- 1 = `operand_a - operand_b`, 0 = `operand_a + operand_b`. -/
  subtract : Bool
  /-- The first operand, and the source of every inactive slot of the result. -/
  operandA : Word
  /-- The second operand (the subtrahend). -/
  operandB : Word
  /-- Carry-in when adding, borrow-in when subtracting (R21). -/
  carryIn : Bool
  /-- The least significant active slot. -/
  lowIndex : SlotIndex
  /-- The most significant active slot. -/
  highIndex : SlotIndex
deriving DecidableEq, Repr

/-- The output ports (R17). -/
structure Outputs where
  /-- The result word. -/
  result : Word
  /-- Carry-out when adding, borrow-out when subtracting (R22). -/
  carryOut : Bool
deriving DecidableEq, Repr

/-- One transaction as the model holds it: the values on the input ports and, once it has been computed, the values the
block drives. The running carry and `raw` live inside a transaction only (R27, R28). -/
structure State where
  /-- The values the host holds on the input ports (R16, R107). -/
  inputs : Inputs
  /-- The values driven for these inputs; none where no transaction has been computed for them (R102; log entry 3). -/
  outputs : Option Outputs
  /-- The model parameter `strict_bcd` (R8, D4; log entry 6); no step writes it. -/
  strictBcd : Bool
  /-- The model's own count of strict-BCD draws (log entry 7). -/
  draws : Nat
deriving DecidableEq, Repr

/-- The block has no fault: nothing raises one (60_exceptions.md R85, R91; log entry 15). Safe. -/
inductive Fault where
deriving DecidableEq, Repr

/-- Why a step has no meaning. -/
inductive Refusal where
  /-- Raised by an arm of `exec` whose operation has no meaning yet; no arm does. Safe. -/
  | notModelled (mnemonic : String)
  /-- Raised by `step` and by every operation on `low_index > high_index` (60_exceptions.md R87; log entry 5).
  Safe: no claim can be proved of a run that holds such a transaction. -/
  | invertedRange
deriving DecidableEq, Repr

/-- The ports before the host has driven any (DESIGN CHOICE, unsafe: R29 gives no value; log entry 2). -/
def Inputs.idle : Inputs :=
  { decimalMode := false, subtract := false, operandA := 0, operandB := 0, carryIn := false,
    lowIndex := 0, highIndex := 0 }

/-- The state after reset: no transaction has been computed (R101, R102) and `strict_bcd` has its default (R8). -/
def State.reset : State :=
  { inputs := Inputs.idle, outputs := none, strictBcd := false, draws := 0 }

end Sys2Proof.Machine
end

