-- ==== Sys2Proof/Machine/Flags.lean ====
section
/-! DEFINITION. The two conversions of the one flag between the caller's sense and the add-with-carry sense of the
running carry (00_scope.md R13). The block has no other flag (10_state.md R23). -/

namespace Sys2Proof.Machine

/-- The carry seed: `cin XOR sub` (40_datapath.md R56). -/
def seedCarry (carryIn sub : Bool) : Bool := carryIn ^^ sub

/-- The carry out: the running carry after slot `hi`, XOR `sub` (R63). -/
def externalCarry (running sub : Bool) : Bool := running ^^ sub

end Sys2Proof.Machine
end

