-- ==== Sys2Proof/Machine/Operands.lean ====
section
/-! DEFINITION. The slots of a word (00_scope.md R10), the digit range selector (40_datapath.md R54), the complementer
(R57) and what a valid BCD digit is (00_scope.md R14). -/

namespace Sys2Proof.Machine

/-- `slot(w, i)`: bits `4*i+3 .. 4*i` of `w` (R10, R30). -/
def slot (w : Word) (i : Nat) : Digit := w.extractLsb' (4 * i) 4

/-- The bits of slot `i`: `0xF << 4*i` (R54). -/
def slotMask (i : Nat) : Word := 0xF#64 <<< (4 * i)

/-- `setslot(w, i, d)`: `w` with slot `i` replaced by `d` (R10). -/
def setSlot (w : Word) (i : Nat) (d : Digit) : Word :=
  (w &&& ~~~slotMask i) ||| (d.setWidth 64 <<< (4 * i))

/-- Slot `i` is active in the range `lo..hi` (R54). -/
abbrev Active (lo hi : SlotIndex) (i : Nat) : Prop := lo.toNat ≤ i ∧ i ≤ hi.toNat

/-- The number of active slots `w = hi - lo + 1` of a well-formed range (R14, R54), which is also the number of digit
steps of a transaction (R66). -/
def rangeWidth (lo hi : SlotIndex) : Nat := hi.toNat - lo.toNat + 1

/-- The active-slot mask `M`: the OR of the bits of every active slot (R54). -/
def activeMask (lo hi : SlotIndex) : Word :=
  (List.range 16).foldr (fun i m => if Active lo hi i then slotMask i ||| m else m) 0

/-- The complementer: the 15's complement of a subtrahend digit (R57). -/
def complementDigit (sub : Bool) (d : Digit) : Digit := if sub then d ^^^ 0xF#4 else d

/-- A valid BCD digit is 0..9 (R14). -/
def isBcdDigit (d : Digit) : Bool := decide (d.toNat ≤ 9)

/-- Every active slot of `w` holds a valid BCD digit (R72, D4). -/
def validDigits (lo hi : SlotIndex) (w : Word) : Bool :=
  (List.range 16).all fun i => !decide (Active lo hi i) || isBcdDigit (slot w i)

end Sys2Proof.Machine
end

