-- ==== Sys2Proof/Machine/Ops.lean ====
section
/-! DEFINITION. The shared operations: the digit cell (40_datapath.md R58 to R61), the carry chain (R62), `AddSub`
(R64), one transaction on the state, and the host's access to the ports. The block takes no exception (60_exceptions.md
R85, R91), so there is no exception entry and no return from one here. -/

namespace Sys2Proof.Machine

/-- The binary digit adder on two digits and the running carry: `raw` and the new running carry (R58). A carry counts
as 1 when true (R11; log entry 10). -/
def binaryAdd (da db : Digit) (c : Bool) : Nat × Bool :=
  let raw := da.toNat + db.toNat + c.toNat
  (raw, decide (15 < raw))

/-- The decimal-adjust unit on what the binary adder gives: subtraction adds 10 where no carry resulted (R59), addition
adds 6 and forces the carry where `raw > 9` (R60); in hexadecimal mode nothing is adjusted (R58). -/
def decimalAdjust (dec sub : Bool) (raw : Nat) (c : Bool) : Nat × Bool :=
  if dec then
    if sub then (if c then (raw, c) else (raw + 10, c))
    else (if 9 < raw then (raw + 6, true) else (raw, c))
  else (raw, c)

/-- One active digit cell: complementer, adder, adjust, and the low four bits of `raw` (R57 to R61). It gives the digit
and the carry into the next slot. -/
def digitCell (dec sub : Bool) (da db : Digit) (c : Bool) : Digit × Bool :=
  let sum := binaryAdd da (complementDigit sub db) c
  let adjusted := decimalAdjust dec sub sum.1 sum.2
  (BitVec.ofNat 4 adjusted.1, adjusted.2)

/-- `n` digit cells from slot `i` upwards, in increasing slot order (R62), on the result word so far and the running
carry; it gives the result word and the running carry after the last cell. -/
def ripple (dec sub : Bool) (a b : Word) : Nat → Nat → Word → Bool → Word × Bool
  | 0, _, r, c => (r, c)
  | n + 1, i, r, c =>
    let cell := digitCell dec sub (slot a i) (slot b i) c
    ripple dec sub a b n (i + 1) (setSlot r i cell.1) cell.2

/-- `AddSub` (R64): refused on an inverted range (R87), and else the ripple over the active slots of a copy of
`operand_a` (R55), from the carry seed (R56) to the carry out (R63). -/
def addSub (p : Inputs) : Except Refusal Outputs :=
  if p.highIndex.toNat < p.lowIndex.toNat then .error .invertedRange
  else
    let chain := ripple p.decimalMode p.subtract p.operandA p.operandB (rangeWidth p.lowIndex p.highIndex)
      p.lowIndex.toNat p.operandA (seedCarry p.carryIn p.subtract)
    .ok { result := chain.1, carryOut := externalCarry chain.2 p.subtract }

/-- The outputs of these inputs are a draw: `strict_bcd` is set, the mode is decimal, and an active slot of an operand
holds an invalid BCD digit (D4; log entry 6). -/
def drawsOutputs (strict : Bool) (p : Inputs) : Bool :=
  strict && p.decimalMode &&
    !(validDigits p.lowIndex p.highIndex p.operandA && validDigits p.lowIndex p.highIndex p.operandB)

/-- The outputs of the `n`-th draw: every active result slot and the carry out are free values, every inactive slot is
that of `operand_a` (D4, R55; log entry 7). -/
def drawnOutputs (p : Inputs) (n : Nat) : Outputs :=
  let active := activeMask p.lowIndex p.highIndex
  { result := (Config.drawWord n &&& active) ||| (p.operandA &&& ~~~active), carryOut := Config.drawCarry n }

/-- One transaction on the port values `p`: the outputs are driven and nothing else of the block changes (R34, R64);
an inverted range is refused before any arithmetic (R87, R90). -/
def transact (p : Inputs) (s : State) : Host.Outcome State Fault Refusal :=
  match addSub p with
  | .error e => .refused e
  | .ok o =>
    if drawsOutputs s.strictBcd p then
      .next { s with outputs := some (drawnOutputs p s.draws), draws := s.draws + 1 }
    else .next { s with outputs := some o }

/-- The port values of an operation whose mode bits, carry-in and range are given and whose data words are those on the
ports (R43, R45). -/
def Inputs.withControl (p : Inputs) (dec sub carryIn : Bool) (highIndex lowIndex : SlotIndex) : Inputs :=
  { p with decimalMode := dec, subtract := sub, carryIn := carryIn, highIndex := highIndex, lowIndex := lowIndex }

/-- `CW = {decimal_mode, subtract, carry_in, high_index, low_index}` as the five control ports present it (R44). -/
def controlWordOf (p : Inputs) : ControlWord :=
  BitVec.ofBool p.decimalMode ++ BitVec.ofBool p.subtract ++ BitVec.ofBool p.carryIn ++ p.highIndex ++ p.lowIndex

/-- The control word in the low `nbits` bits of a number; there is no port for a bit above bit 10 (log entry 4). -/
def controlWordOfNumber (nbits w : Nat) : ControlWord := BitVec.ofNat 11 (w % 2 ^ nbits)

/-- The refusal that a rejected control word gives (R87). -/
def refusalOf : DecodeError → Refusal
  | .invertedRange => .invertedRange

/-- The host drives one input set. The outputs of the set before are withdrawn: an output belongs to the inputs of its
own transaction and holds no value between transactions (R15, R22, R107; log entry 3). -/
def State.drive (s : State) (p : Inputs) : State := { s with inputs := p, outputs := none }

/-- The host drives the five control ports to the fields of a control word (R45) and leaves the data words as they are.
It is a new input set like any other, so the outputs of the set before are withdrawn (10_state.md R22, R29,
70_reset_and_hazards.md R107; log entry 3). -/
def withControlWord (s : State) (cw : ControlWord) : State :=
  s.drive (s.inputs.withControl (cwDecimalMode cw) (cwSubtract cw) (cwCarryIn cw) (cwHighIndex cw) (cwLowIndex cw))

end Sys2Proof.Machine
end

