-- ==== Sys2Proof/Machine/AddSub.lean ====
section
/-! DEFINITION. The meanings of the four operations (41_add_sub.md): each is `AddSub` with its two mode bits fixed, on
the data words that stand on the ports. -/

namespace Sys2Proof.Machine

/-- `ADD.X a, b, cin, lo:hi` (R77). -/
def execAddX (carryIn : Bool) (highIndex lowIndex : SlotIndex) (s : State) : Host.Outcome State Fault Refusal :=
  transact (s.inputs.withControl false false carryIn highIndex lowIndex) s

/-- `SUB.X a, b, cin, lo:hi` (R79). -/
def execSubX (carryIn : Bool) (highIndex lowIndex : SlotIndex) (s : State) : Host.Outcome State Fault Refusal :=
  transact (s.inputs.withControl false true carryIn highIndex lowIndex) s

/-- `ADD.D a, b, cin, lo:hi` (R78). -/
def execAddD (carryIn : Bool) (highIndex lowIndex : SlotIndex) (s : State) : Host.Outcome State Fault Refusal :=
  transact (s.inputs.withControl true false carryIn highIndex lowIndex) s

/-- `SUB.D a, b, cin, lo:hi` (R80). -/
def execSubD (carryIn : Bool) (highIndex lowIndex : SlotIndex) (s : State) : Host.Outcome State Fault Refusal :=
  transact (s.inputs.withControl true true carryIn highIndex lowIndex) s

end Sys2Proof.Machine
end

