-- ==== Sys2Proof/Machine/Dispatch.lean ====
section
/-! DEFINITION. One arm per operation (30_encoding.md R46), each one direct call of its meaning. -/

namespace Sys2Proof.Machine

def exec (i : Instr) (s : State) : Host.Outcome State Fault Refusal :=
  match i with
  | .addX carryIn highIndex lowIndex => Sys2Proof.Machine.execAddX carryIn highIndex lowIndex s
  | .subX carryIn highIndex lowIndex => Sys2Proof.Machine.execSubX carryIn highIndex lowIndex s
  | .addD carryIn highIndex lowIndex => Sys2Proof.Machine.execAddD carryIn highIndex lowIndex s
  | .subD carryIn highIndex lowIndex => Sys2Proof.Machine.execSubD carryIn highIndex lowIndex s

end Sys2Proof.Machine
end

