-- ==== Sys2Proof/Machine/Step.lean ====
section
/-! DEFINITION. One step: the operation that the control ports present is computed as one atomic transaction
(92_eei_decisions.md D1; log entries 1 and 4). -/

namespace Sys2Proof.Machine

/-- One transaction on the values that stand on the ports: the control word selects the operation (10_state.md R20,
30_encoding.md R44), and a reserved control word is refused (R47, 60_exceptions.md R87). -/
def step (s : State) : Host.Outcome State Fault Refusal :=
  match decode (controlWordOf s.inputs) with
  | .ok i => exec i s
  | .error e => .refused (refusalOf e)

/-- The state with a control word driven onto the five control ports, which is where `step` finds its operation
(log entry 4); an output of the inputs before is withdrawn, as whenever the host drives inputs (log entry 3). -/
def State.withFetchWord (s : State) (nbits w : Nat) : State := withControlWord s (controlWordOfNumber nbits w)

end Sys2Proof.Machine
end

