-- ==== Sys2Proof/Machine/Transactions.lean ====
section
/-! DEFINITION. A run as the host sees it: a list of transactions, each driven onto the ports and computed, with
nothing carried from one to the next (20_memory.md R37, 70_reset_and_hazards.md R106). -/

namespace Sys2Proof.Machine

/-- The host drives one input set and the block computes it. -/
def transaction (s : State) (p : Inputs) : Host.Outcome State Fault Refusal := step (s.drive p)

/-- The transactions of a list, in order, with the outputs of each; a refused transaction refuses the whole run
(60_exceptions.md R87). -/
def runTransactions : List Inputs → State → Host.Outcome (State × List Outputs) Fault Refusal
  | [], s => .next (s, [])
  | p :: ps, s =>
    match transaction s p with
    | .next t =>
      match runTransactions ps t with
      | .next (u, outs) => .next (u, t.outputs.toList ++ outs)
      | .fault f => .fault f
      | .refused e => .refused e
    | .fault f => .fault f
    | .refused e => .refused e

end Sys2Proof.Machine
end

