-- ==== Sys2Proof/Machine/Specializations.lean ====
section
/-! DEFINITION. The two increment specializations (42_specializations.md): fixed settings of `ADD.D` that add no new
logic (R84). Discarding the carry out is the host's not reading it (log entry 16). -/

namespace Sys2Proof.Machine

/-- The operation that `INC.M` expands to: `ADD.D` with carry-in 1 over slots 3 to 12 (30_encoding.md R50). -/
def incMInstr : Instr := .addD true 12#4 3#4

/-- The operation that `INC.X` expands to: `ADD.D` with carry-in 1 over slots 0 to 1 (R51). -/
def incXInstr : Instr := .addD true 1#4 0#4

/-- The input set of `INC.M a` (R50, R82). -/
def incMInputs (a : Word) : Inputs :=
  { decimalMode := true, subtract := false, operandA := a, operandB := 0, carryIn := true, lowIndex := 3, highIndex := 12 }

/-- The input set of `INC.X a` (R51, R83). -/
def incXInputs (a : Word) : Inputs :=
  { decimalMode := true, subtract := false, operandA := a, operandB := 0, carryIn := true, lowIndex := 0, highIndex := 1 }

/-- `INC.M a` (R82). -/
def runIncM (a : Word) (s : State) : Host.Outcome State Fault Refusal := transaction s (incMInputs a)

/-- `INC.X a` (R83). -/
def runIncX (a : Word) (s : State) : Host.Outcome State Fault Refusal := transaction s (incXInputs a)

end Sys2Proof.Machine
end

