-- ==== Sys2Proof/Machine/Assembler.lean ====
section
/-! DEFINITION. The assembler syntax of one block operation and of the two pseudo-instructions (30_encoding.md R49 to
R51), as abstract syntax and as text. Lexical conventions that R49 leaves open: log entry 14. -/

namespace Sys2Proof.Machine

/-- The name of a host variable. -/
abbrev VarName := List Char

/-- A 64-bit operand: a literal or a host variable (R49). -/
inductive WordArg where
  | literal (w : Word)
  | named (v : VarName)
deriving DecidableEq, Repr

/-- A carry-in: a literal bit (R49), or a 1-bit host variable as in program P1 (log entry 14). -/
inductive BitArg where
  | literal (b : Bool)
  | named (v : VarName)
deriving DecidableEq, Repr

/-- The four mnemonics (R46). -/
inductive Mnemonic where
  | addX
  | subX
  | addD
  | subD
deriving DecidableEq, Repr

/-- One block operation `<mnemonic> <a>, <b>, <cin>, <lo>:<hi> -> <r>, <c>` (R49); no carry variable stands for `_`. -/
structure BlockOp where
  mnemonic : Mnemonic
  a : WordArg
  b : WordArg
  carryIn : BitArg
  lowIndex : SlotIndex
  highIndex : SlotIndex
  result : VarName
  carryOut : Option VarName
deriving DecidableEq, Repr

/-- The opcode of a mnemonic, `{decimal_mode, subtract}` (R46). -/
def mnemonicOpcode : Mnemonic → Nat
  | .addX => 0
  | .subX => 1
  | .addD => 2
  | .subD => 3

/-- The operation of an assembled line, once its carry-in is known. -/
def BlockOp.instr (o : BlockOp) (carryIn : Bool) : Instr :=
  match o.mnemonic with
  | .addX => .addX carryIn o.highIndex o.lowIndex
  | .subX => .subX carryIn o.highIndex o.lowIndex
  | .addD => .addD carryIn o.highIndex o.lowIndex
  | .subD => .subD carryIn o.highIndex o.lowIndex

/-- The assembled form `CW = opcode << 9 | cin << 8 | hi << 4 | lo` (R49). -/
def BlockOp.controlWord (o : BlockOp) (carryIn : Bool) : ControlWord :=
  BitVec.ofNat 11 (mnemonicOpcode o.mnemonic <<< 9 ||| carryIn.toNat <<< 8 ||| o.highIndex.toNat <<< 4 |||
    o.lowIndex.toNat)

/-- `INC.M <a> -> <r>` expands to `ADD.D <a>, 0x0, 1, 3:12 -> <r>, _` (R50). -/
def expandIncM (a : WordArg) (r : VarName) : BlockOp :=
  { mnemonic := .addD, a := a, b := .literal 0, carryIn := .literal true, lowIndex := 3, highIndex := 12,
    result := r, carryOut := none }

/-- `INC.X <a> -> <r>` expands to `ADD.D <a>, 0x0, 1, 0:1 -> <r>, _` (R51). -/
def expandIncX (a : WordArg) (r : VarName) : BlockOp :=
  { mnemonic := .addD, a := a, b := .literal 0, carryIn := .literal true, lowIndex := 0, highIndex := 1,
    result := r, carryOut := none }

/-- One token of a line: a run of other characters, or one of the marks of R49. -/
inductive Token where
  | word (cs : List Char)
  | comma
  | colon
  | arrow
deriving DecidableEq, Repr

/-- The pending run of characters as a token. -/
def flushToken (pending : List Char) : List Token := if pending.isEmpty then [] else [.word pending.reverse]

/-- The tokens of a line; spaces separate. -/
def tokenize : List Char → List Char → List Token
  | [], pending => flushToken pending
  | ' ' :: cs, pending => flushToken pending ++ tokenize cs []
  | ',' :: cs, pending => flushToken pending ++ .comma :: tokenize cs []
  | ':' :: cs, pending => flushToken pending ++ .colon :: tokenize cs []
  | '-' :: '>' :: cs, pending => flushToken pending ++ .arrow :: tokenize cs []
  | c :: cs, pending => tokenize cs (c :: pending)

/-- The value of a hexadecimal digit. -/
def hexDigitValue (c : Char) : Option Nat :=
  let n := c.toNat
  if 48 ≤ n ∧ n ≤ 57 then some (n - 48)
  else if 97 ≤ n ∧ n ≤ 102 then some (n - 87)
  else if 65 ≤ n ∧ n ≤ 70 then some (n - 55)
  else none

/-- The number that digits of a base spell, most significant first, after an accumulated prefix. -/
def digitsValue (base : Nat) : List Char → Nat → Option Nat
  | [], acc => some acc
  | c :: cs, acc =>
    match hexDigitValue c with
    | some d => if d < base then digitsValue base cs (acc * base + d) else none
    | none => none

/-- A hexadecimal literal `0x...` of 1 to 16 digits (R9, R49). -/
def parseHexLiteral : List Char → Option Word
  | '0' :: 'x' :: cs =>
    if cs.isEmpty || 16 < cs.length then none else (digitsValue 16 cs 0).map (BitVec.ofNat 64)
  | _ => none

/-- Is this character a letter? -/
def isLetter (c : Char) : Bool :=
  let n := c.toNat
  (decide (65 ≤ n) && decide (n ≤ 90)) || (decide (97 ≤ n) && decide (n ≤ 122))

/-- Is this character a decimal digit? -/
def isDecimal (c : Char) : Bool := decide (48 ≤ c.toNat) && decide (c.toNat ≤ 57)

/-- The name of a host variable: a letter, then letters, digits and underscores (log entry 14). -/
def parseVar : List Char → Option VarName
  | [] => none
  | c :: cs => if isLetter c && cs.all (fun d => isLetter d || isDecimal d || d == '_') then some (c :: cs) else none

/-- A 64-bit operand: a hexadecimal literal or the name of a host variable (R49). -/
def parseWordArg (cs : List Char) : Option WordArg :=
  match parseHexLiteral cs with
  | some w => some (.literal w)
  | none => (parseVar cs).map .named

/-- A carry-in: `0`, `1` (R49), or the name of a host variable (log entry 14). -/
def parseBitArg (cs : List Char) : Option BitArg :=
  if cs = ['0'] then some (.literal false)
  else if cs = ['1'] then some (.literal true)
  else (parseVar cs).map .named

/-- A decimal slot index 0..15 (R49). -/
def parseIndex (cs : List Char) : Option SlotIndex :=
  if cs.isEmpty || 2 < cs.length then none
  else
    match digitsValue 10 cs 0 with
    | some n => if n ≤ 15 then some (BitVec.ofNat 4 n) else none
    | none => none

/-- Where the carry goes: `_` discards it (R49). -/
def parseCarryTarget (cs : List Char) : Option (Option VarName) :=
  if cs = ['_'] then some none else (parseVar cs).map some

/-- A mnemonic (R46). -/
def parseMnemonic (cs : List Char) : Option Mnemonic :=
  if cs = ['A', 'D', 'D', '.', 'X'] then some .addX
  else if cs = ['S', 'U', 'B', '.', 'X'] then some .subX
  else if cs = ['A', 'D', 'D', '.', 'D'] then some .addD
  else if cs = ['S', 'U', 'B', '.', 'D'] then some .subD
  else none

/-- The pseudo-instruction of a mnemonic, as its expansion (R50, R51). -/
def parsePseudo (cs : List Char) : Option (WordArg → VarName → BlockOp) :=
  if cs = ['I', 'N', 'C', '.', 'M'] then some expandIncM
  else if cs = ['I', 'N', 'C', '.', 'X'] then some expandIncX
  else none

/-- The block operation of a line of tokens, pseudo-instructions expanded; a range with `lo > hi` is not assembled
(R49). -/
def parseTokens : List Token → Option BlockOp
  | [.word m, .word a, .comma, .word b, .comma, .word c, .comma, .word lo, .colon, .word hi, .arrow, .word r, .comma,
      .word k] => do
    let lowIndex ← parseIndex lo
    let highIndex ← parseIndex hi
    if highIndex.toNat < lowIndex.toNat then none
    else
      some
        { mnemonic := ← parseMnemonic m, a := ← parseWordArg a, b := ← parseWordArg b, carryIn := ← parseBitArg c,
          lowIndex := lowIndex, highIndex := highIndex, result := ← parseVar r, carryOut := ← parseCarryTarget k }
  | [.word m, .word a, .arrow, .word r] => do
    let expand ← parsePseudo m
    some (expand (← parseWordArg a) (← parseVar r))
  | _ => none

/-- The block operation of a line of text (R49 to R51). -/
def parseLine (line : List Char) : Option BlockOp := parseTokens (tokenize line [])

end Sys2Proof.Machine
end

