-- ==== Sys2Proof/Machine/Caller.lean ====
section
/-! DEFINITION. The host around the block, as far as the spec gives it: host programs (30_encoding.md R52) and the open
byte order of a word in the host's memory (20_memory.md R31). Host variables and host control flow are the host's, not
the block's (10_state.md R20), so none of this stands in `State`. Conventions: log entries 8 and 13. -/

namespace Sys2Proof.Machine

/-- One step of a host program (R52). -/
inductive CallerStep where
  /-- A block operation in the syntax of R49. -/
  | block (o : BlockOp)
  /-- `INC.M <a> -> <r>` (R50). -/
  | incM (a : WordArg) (r : VarName)
  /-- `INC.X <a> -> <r>` (R51). -/
  | incX (a : WordArg) (r : VarName)
  /-- Assignment of a 64-bit value to a host variable. -/
  | assign (v : VarName) (x : WordArg)
  /-- `if <c> goto <step>`. -/
  | ifGoto (c : VarName) (target : Nat)
  /-- `goto <step>`. -/
  | goto (target : Nat)
  /-- `halt`. -/
  | halt
deriving DecidableEq, Repr

/-- A host program in progress: its 64-bit and 1-bit variables, the number of its next step, and the block. -/
structure CallerState where
  words : List (VarName × Word)
  bits : List (VarName × Bool)
  nextStep : Nat
  block : State
deriving DecidableEq, Repr

/-- Why a host program goes no further. -/
inductive CallerStop where
  /-- The step `halt`. -/
  | halted
  /-- A step reads a host variable that holds nothing (log entry 13). Safe. -/
  | unsetVariable (v : VarName)
  /-- No step has this number (log entry 13). Safe. -/
  | noSuchStep (n : Nat)
  /-- The block refused the operation (60_exceptions.md R87). Safe. -/
  | blockRefused (r : Refusal)
deriving DecidableEq, Repr

/-- The value a host variable holds. -/
def lookupVar {α : Type} : List (VarName × α) → VarName → Option α
  | [], _ => none
  | (w, x) :: rest, v => if w = v then some x else lookupVar rest v

/-- The variables with one of them set, each name listed once. -/
def setVar {α : Type} : List (VarName × α) → VarName → α → List (VarName × α)
  | [], v, x => [(v, x)]
  | (w, y) :: rest, v, x => if w = v then (w, x) :: rest else (w, y) :: setVar rest v x

/-- The value of a 64-bit operand. -/
def evalWord (k : CallerState) : WordArg → Except CallerStop Word
  | .literal w => .ok w
  | .named v =>
    match lookupVar k.words v with
    | some w => .ok w
    | none => .error (.unsetVariable v)

/-- The value of a 1-bit host variable. -/
def evalBitVar (k : CallerState) (v : VarName) : Except CallerStop Bool :=
  match lookupVar k.bits v with
  | some b => .ok b
  | none => .error (.unsetVariable v)

/-- The value of a carry-in. -/
def evalBit (k : CallerState) : BitArg → Except CallerStop Bool
  | .literal b => .ok b
  | .named v => evalBitVar k v

/-- The input set of a block operation on given data words and carry-in: the fields of its control word beside the data
words (R43, R44, R49). -/
def blockInputs (o : BlockOp) (a b : Word) (carryIn : Bool) : Inputs :=
  let cw := o.controlWord carryIn
  { decimalMode := cwDecimalMode cw, subtract := cwSubtract cw, operandA := a, operandB := b, carryIn := cwCarryIn cw,
    lowIndex := cwLowIndex cw, highIndex := cwHighIndex cw }

/-- The host variables after it has taken the outputs; a discarded carry goes nowhere (R17, R49). -/
def takeOutputs (k : CallerState) (o : BlockOp) (t : State) : CallerState :=
  match t.outputs with
  | none => { k with block := t, nextStep := k.nextStep + 1 }
  | some out =>
    let bits := match o.carryOut with
      | some c => setVar k.bits c out.carryOut
      | none => k.bits
    { words := setVar k.words o.result out.result, bits := bits, nextStep := k.nextStep + 1, block := t }

/-- One block operation of a host program: the operands are read, the transaction is computed, the outputs taken. -/
def callerBlock (k : CallerState) (o : BlockOp) : Except CallerStop CallerState :=
  match evalWord k o.a, evalWord k o.b, evalBit k o.carryIn with
  | .ok a, .ok b, .ok c =>
    match transaction k.block (blockInputs o a b c) with
    | .next t => .ok (takeOutputs k o t)
    | .refused r => .error (.blockRefused r)
    | .fault f => nomatch f
  | .error e, _, _ => .error e
  | _, .error e, _ => .error e
  | _, _, .error e => .error e

/-- One step of a host program whose steps are numbered from 1 (R52). -/
def callerStep (program : List CallerStep) (k : CallerState) : Except CallerStop CallerState :=
  if k.nextStep = 0 then .error (.noSuchStep 0)
  else
    match program[k.nextStep - 1]? with
    | none => .error (.noSuchStep k.nextStep)
    | some (.block o) => callerBlock k o
    | some (.incM a r) => callerBlock k (expandIncM a r)
    | some (.incX a r) => callerBlock k (expandIncX a r)
    | some (.assign v x) =>
      match evalWord k x with
      | .ok w => .ok { k with words := setVar k.words v w, nextStep := k.nextStep + 1 }
      | .error e => .error e
    | some (.ifGoto c target) =>
      match evalBitVar k c with
      | .ok true => .ok { k with nextStep := target }
      | .ok false => .ok { k with nextStep := k.nextStep + 1 }
      | .error e => .error e
    | some (.goto target) => .ok { k with nextStep := target }
    | some .halt => .error .halted

/-- The eight bytes of a word in a byte-addressed memory, lowest address first, in a byte order (R31, D10). -/
def wordBytes (order : ByteOrder) (w : Word) : List Byte :=
  let ascending := (List.range 8).map fun i => w.extractLsb' (8 * i) 8
  match order with
  | .little => ascending
  | .big => ascending.reverse

/-- The bytes of a word in this host's memory, whose byte order is open (R31; log entry 8). -/
def hostBytes (w : Word) : List Byte := wordBytes Config.hostByteOrder w

end Sys2Proof.Machine
end

