-- ==== Sys2Proof/Machine/Reference.lean ====
section
/-! DEFINITION. The spec's other readings of the datapath, in whose terms claims are stated: the digit cell as a table
(40_datapath.md R67), the fixed sixteen-cell ripple (R68) and the value of a digit range (R69). -/

namespace Sys2Proof.Machine

/-- The value of a digit range in a base: the sum over `i = lo..hi` of `slot(w, i) * base^(i - lo)` (R69). -/
def rangeValue (base : Nat) (lo hi : SlotIndex) (w : Word) : Nat :=
  ((List.range (rangeWidth lo hi)).map fun j => (slot w (lo.toNat + j)).toNat * base ^ j).sum

/-- The digit and the carry into the next slot for each value of `raw` in 0..31 (the table of R67). -/
def cellTable (dec sub : Bool) (raw : Nat) : Nat × Bool :=
  match dec, sub with
  | false, _ => if raw ≤ 15 then (raw, false) else (raw - 16, true)
  | true, false => if raw ≤ 9 then (raw, false) else if raw ≤ 25 then (raw - 10, true) else (raw - 26, true)
  | true, true => if raw ≤ 5 then (raw + 10, false) else if raw ≤ 15 then (raw - 6, false) else (raw - 16, true)

/-- Cell `i` of the fixed chain: an active cell computes on its carry input, an inactive cell outputs the slot of
`operand_a` and passes its carry input on (R68). -/
def chainCell (p : Inputs) (i : Nat) (c : Bool) : Digit × Bool :=
  if Active p.lowIndex p.highIndex i then
    digitCell p.decimalMode p.subtract (slot p.operandA i) (slot p.operandB i) c
  else (slot p.operandA i, c)

/-- The outputs of sixteen cells in a fixed ripple chain from slot 0 to slot 15 (R68). -/
def fixedRipple (p : Inputs) : Outputs :=
  let chain := (List.range 16).foldl
    (fun (acc : Word × Bool) i =>
      let cell := chainCell p i acc.2
      (setSlot acc.1 i cell.1, cell.2))
    (0#64, p.carryIn ^^ p.subtract)
  { result := chain.1, carryOut := chain.2 ^^ p.subtract }

end Sys2Proof.Machine
end

