-- ==== Sys2Proof/Safety.lean ====
section
/-! DEFINITION. What a safe transaction is, and what must hold of the ports at every moment, in the terms that claims
use. -/

namespace Sys2Proof.Machine

/-- A well-formed input set (10_state.md R18). -/
abbrev Inputs.WellFormed (p : Inputs) : Prop := p.lowIndex.toNat ≤ p.highIndex.toNat

/-- The block answers these inputs with outputs rather than a refusal. -/
def Completes (s : State) : Prop := ∃ t, step s = .next t

/-- An operation on these data words is computed and not drawn: `strict_bcd` is off (its default, R8), or the active
slots of both operands hold valid BCD digits (D4). -/
abbrev Computed (s : State) (lowIndex highIndex : SlotIndex) : Prop :=
  s.strictBcd = false ∨
    (validDigits lowIndex highIndex s.inputs.operandA = true ∧ validDigits lowIndex highIndex s.inputs.operandB = true)

/-- Every inactive slot of the first word is that of the second (40_datapath.md R55). -/
abbrev InactiveSlotsAgree (lowIndex highIndex : SlotIndex) (w v : Word) : Prop :=
  ∀ i, i < 16 → ¬Active lowIndex highIndex i → slot w i = slot v i

/-- The outputs, where there are any, are those of the inputs that stand on the ports (10_state.md R15, R29): the inputs
are well formed, every inactive slot is that of `operand_a`, and unless the outputs are a draw of strict BCD they are
the digits and the carry out that the fixed ripple chain of R68 gives, which is decimal digits for decimal operands. -/
def OutputsBelongToInputs (s : State) : Prop :=
  ∀ o, s.outputs = some o →
    s.inputs.WellFormed ∧
    InactiveSlotsAgree s.inputs.lowIndex s.inputs.highIndex o.result s.inputs.operandA ∧
    (drawsOutputs s.strictBcd s.inputs = false → o = fixedRipple s.inputs) ∧
    (s.inputs.decimalMode = true →
      validDigits s.inputs.lowIndex s.inputs.highIndex s.inputs.operandA = true →
      validDigits s.inputs.lowIndex s.inputs.highIndex s.inputs.operandB = true →
      validDigits s.inputs.lowIndex s.inputs.highIndex o.result = true)

end Sys2Proof.Machine
end

