-- ==== Sys2Proof/Certificates/Slice0/Obligations.lean ====
section
/-! DEFINITION. The statements for the provers. Each says in its docstring which rule of the spec it formalises; a
statement that rests on a choice of the model says so and names the log entry. -/

open Sys2Proof Sys2Proof.Machine

/-! ### Encoding -/

/-- Decoding the control word of a well-formed operation gives the operation back (30_encoding.md R44 to R46, R48). -/
def Obligations.DecodeOfEncodeIsTheOperation : Prop :=
  ∀ i : Instr, i.WellFormed → decode (encode i) = .ok i

/-- A control word that decodes is the control word of the operation it decodes to (R44 to R46): no two words stand for
one operation, and no bit of a word is dropped. -/
def Obligations.EncodeOfDecodeIsTheControlWord : Prop :=
  ∀ (cw : ControlWord) (i : Instr), decode cw = .ok i → encode i = cw ∧ i.WellFormed

/-- A control word is reserved exactly where `CW[3:0] > CW[7:4]`, 960 of the 2048 words are, 1088 are legal, and a
transaction with a reserved control word is refused (R47). -/
def Obligations.ReservedWordsAreTheInvertedRanges : Prop :=
  (∀ cw : ControlWord,
    decode cw = .error .invertedRange ↔ (cw.extractLsb' 4 4).toNat < (cw.extractLsb' 0 4).toNat) ∧
  (∀ cw : ControlWord, (cw.extractLsb' 0 4).toNat ≤ (cw.extractLsb' 4 4).toNat → ∃ i, decode cw = .ok i) ∧
  ((List.range 2048).filter fun n => isReserved (BitVec.ofNat 11 n)).length = 960 ∧
  ((List.range 2048).filter fun n => !isReserved (BitVec.ofNat 11 n)).length = 1088 ∧
  ∀ s : State, isReserved (controlWordOf s.inputs) = true → step s = .refused .invertedRange

/-- Control words written out from the layout of R44 decode to their operations (the words are those of the worked
examples and vectors L1-9, L1-10, AX-6, SX-7, SD-13 and RF-2). -/
def Obligations.WrittenOutWordsDecode : Prop :=
  decode 0b10111000011#11 = .ok (.addD true 12 3) ∧
  decode 0b10100010000#11 = .ok (.addD true 1 0) ∧
  decode 0b00101110100#11 = .ok (.addX true 7 4) ∧
  decode 0b01010111000#11 = .ok (.subX false 11 8) ∧
  decode 0b11000010001#11 = .ok (.subD false 1 1) ∧
  decode 0b01011101111#11 = .error .invertedRange

/-- The two specializations are `ADD.D` with control words 0x5C3 and 0x510 and `operand_b = 0` (R50, R51). -/
def Obligations.IncrementControlWords : Prop :=
  encode incMInstr = 0x5C3#11 ∧ encode incXInstr = 0x510#11 ∧
  (∀ a : Word, controlWordOf (incMInputs a) = 0x5C3#11 ∧ (incMInputs a).operandA = a ∧ (incMInputs a).operandB = 0) ∧
  (∀ a : Word, controlWordOf (incXInputs a) = 0x510#11 ∧ (incXInputs a).operandA = a ∧ (incXInputs a).operandB = 0)

/-- The assembled form `opcode << 9 | cin << 8 | hi << 4 | lo` is the control word of the operation of the line
(R49 against the layout of R44). -/
def Obligations.AssembledFormIsTheEncoding : Prop :=
  ∀ (o : BlockOp) (carryIn : Bool), o.controlWord carryIn = encode (o.instr carryIn)

/-! ### The step -/

/-- When the control word on the ports decodes to an operation, one step is that operation on that state, and the step
adds nothing around it. -/
def Obligations.StepRunsTheDecodedOperation : Prop :=
  ∀ (s : State) (i : Instr), decode (controlWordOf s.inputs) = .ok i → step s = exec i s

/-- On a well-formed input set the opcode bits `CW[10:9]` select the operation, under the mask and match values of the
table, and the other ports are its operand fields (R46). -/
def Obligations.OpcodeBitsSelectTheOperation : Prop :=
  ∀ s : State, s.inputs.WellFormed →
    let p := s.inputs
    let cw := controlWordOf p
    (cw &&& 0x600#11 = 0x000#11 → step s = exec (.addX p.carryIn p.highIndex p.lowIndex) s) ∧
    (cw &&& 0x600#11 = 0x200#11 → step s = exec (.subX p.carryIn p.highIndex p.lowIndex) s) ∧
    (cw &&& 0x600#11 = 0x400#11 → step s = exec (.addD p.carryIn p.highIndex p.lowIndex) s) ∧
    (cw &&& 0x600#11 = 0x600#11 → step s = exec (.subD p.carryIn p.highIndex p.lowIndex) s) ∧
    (cw &&& 0x600#11 = 0x000#11 ∨ cw &&& 0x600#11 = 0x200#11 ∨ cw &&& 0x600#11 = 0x400#11 ∨ cw &&& 0x600#11 = 0x600#11)

/-- A control word that the host drives onto the ports is what the next step runs (the model's own interface, log
entries 4 and 9). -/
def Obligations.DrivenControlWordIsRun : Prop :=
  ∀ (s : State) (w : Nat) (i : Instr), decodeTableWord 16 w = some i →
    step (s.withFetchWord 16 w) = exec i (s.withFetchWord 16 w)

/-- A step completes exactly where the range is not inverted, whatever the operands, the modes and the parameter are;
where it is inverted the step is refused, and no step faults (R66, R85, R87, R90). -/
def Obligations.StepCompletesExactlyOnOrderedRanges : Prop :=
  ∀ s : State,
    (s.inputs.lowIndex.toNat ≤ s.inputs.highIndex.toNat → ∃ t o, step s = .next t ∧ t.outputs = some o) ∧
    (s.inputs.highIndex.toNat < s.inputs.lowIndex.toNat → step s = .refused .invertedRange) ∧
    (∀ i : Instr, i.highIndex.toNat < i.lowIndex.toNat → exec i s = .refused .invertedRange) ∧
    ∀ f : Fault, step s ≠ .fault f

/-- What an operation leaves unchanged: the inputs and the parameter, and the draw counter unless the outputs are a draw
of strict BCD (R15, R34; the counter is the model's own, log entry 7). It holds for all four operations. -/
def Obligations.OperationChangesOnlyItsOutputs : Prop :=
  ∀ (i : Instr) (s t : State), exec i s = .next t →
    t.inputs = s.inputs ∧ t.strictBcd = s.strictBcd ∧
    ((t.draws = s.draws ∧ Computed s i.lowIndex i.highIndex) ∨
     (t.draws = s.draws ∧ i.decimalMode = false) ∨
     (t.draws = s.draws + 1 ∧ i.decimalMode = true ∧ ¬Computed s i.lowIndex i.highIndex))

/-! ### Digit by digit -/

/-- `ADD.X` completes, and its digits and carries are those of the pseudocode of R77: `raw` is the digit sum and the
carry, the digit is `raw[3:0]`, the next carry is `raw > 15`; inactive slots are those of `a` (R55). Nothing but the
outputs changes. -/
def Obligations.AddXDigitByDigit : Prop :=
  ∀ (s : State) (cin : Bool) (hi lo : SlotIndex), lo.toNat ≤ hi.toNat →
    ∃ (r : Word) (k : Nat → Bool),
      exec (.addX cin hi lo) s = .next { s with outputs := some { result := r, carryOut := k (hi.toNat + 1) } } ∧
      k lo.toNat = cin ∧
      (∀ i, Active lo hi i →
        let raw := (slot s.inputs.operandA i).toNat + (slot s.inputs.operandB i).toNat + (k i).toNat
        (slot r i).toNat = raw % 16 ∧ (k (i + 1) = true ↔ 15 < raw)) ∧
      InactiveSlotsAgree lo hi r s.inputs.operandA

/-- `SUB.X` completes, and its digits and carries are those of the pseudocode of R79: the seed is NOT `cin`, `raw` is the
sum of the digit of `a`, the 15's complement of the digit of `b` and the carry, and the borrow out is NOT the last
carry. Nothing but the outputs changes. -/
def Obligations.SubXDigitByDigit : Prop :=
  ∀ (s : State) (cin : Bool) (hi lo : SlotIndex), lo.toNat ≤ hi.toNat →
    ∃ (r : Word) (k : Nat → Bool),
      exec (.subX cin hi lo) s = .next { s with outputs := some { result := r, carryOut := !k (hi.toNat + 1) } } ∧
      k lo.toNat = (!cin) ∧
      (∀ i, Active lo hi i →
        let raw := (slot s.inputs.operandA i).toNat + (15 - (slot s.inputs.operandB i).toNat) + (k i).toNat
        (slot r i).toNat = raw % 16 ∧ (k (i + 1) = true ↔ 15 < raw)) ∧
      InactiveSlotsAgree lo hi r s.inputs.operandA

/-- `ADD.D` completes, and its digits and carries are those of the pseudocode of R78, for every digit value, A to F
included (R65): where `raw > 9` the digit is `(raw + 6)[3:0]` and a carry goes on, else the digit is `raw`. This holds
where the outputs are computed (`strict_bcd` off, its default, or valid digits). Nothing but the outputs changes. -/
def Obligations.AddDDigitByDigit : Prop :=
  ∀ (s : State) (cin : Bool) (hi lo : SlotIndex), lo.toNat ≤ hi.toNat → Computed s lo hi →
    ∃ (r : Word) (k : Nat → Bool),
      exec (.addD cin hi lo) s = .next { s with outputs := some { result := r, carryOut := k (hi.toNat + 1) } } ∧
      k lo.toNat = cin ∧
      (∀ i, Active lo hi i →
        let raw := (slot s.inputs.operandA i).toNat + (slot s.inputs.operandB i).toNat + (k i).toNat
        (slot r i).toNat = (if 9 < raw then (raw + 6) % 16 else raw) ∧ (k (i + 1) = true ↔ 9 < raw)) ∧
      InactiveSlotsAgree lo hi r s.inputs.operandA

/-- `SUB.D` completes, and its digits and carries are those of the pseudocode of R80, for every digit value, A to F
included (R65): the subtrahend digit is 15's-complemented, and where no carry results the digit is `(raw + 10)[3:0]`.
This holds where the outputs are computed. Nothing but the outputs changes. -/
def Obligations.SubDDigitByDigit : Prop :=
  ∀ (s : State) (cin : Bool) (hi lo : SlotIndex), lo.toNat ≤ hi.toNat → Computed s lo hi →
    ∃ (r : Word) (k : Nat → Bool),
      exec (.subD cin hi lo) s = .next { s with outputs := some { result := r, carryOut := !k (hi.toNat + 1) } } ∧
      k lo.toNat = (!cin) ∧
      (∀ i, Active lo hi i →
        let raw := (slot s.inputs.operandA i).toNat + (15 - (slot s.inputs.operandB i).toNat) + (k i).toNat
        (slot r i).toNat = (if 15 < raw then raw % 16 else (raw + 10) % 16) ∧ (k (i + 1) = true ↔ 15 < raw)) ∧
      InactiveSlotsAgree lo hi r s.inputs.operandA

/-- With `strict_bcd` set, a decimal operation on an invalid digit completes with free values in every active slot and
in the carry out, and inactive slots are still those of `a` (D4). The form of the free values is the model's choice (log
entry 7). -/
def Obligations.StrictInvalidDigitsAreDrawn : Prop :=
  ∀ (s : State) (i : Instr), i.WellFormed → i.decimalMode = true → ¬Computed s i.lowIndex i.highIndex →
    ∃ r : Word,
      exec i s = .next { s with
        outputs := some { result := r, carryOut := Config.drawCarry s.draws }, draws := s.draws + 1 } ∧
      (∀ j, Active i.lowIndex i.highIndex j → slot r j = slot (Config.drawWord s.draws) j) ∧
      InactiveSlotsAgree i.lowIndex i.highIndex r s.inputs.operandA

/-! ### The datapath -/

/-- Slot `i` of the mask `M` is all ones where the slot is active and zero elsewhere, the range width is 1..16, and the
two examples of R54. -/
def Obligations.ActiveMaskMarksTheRange : Prop :=
  (∀ (lo hi : SlotIndex) (i : Nat), i < 16 →
    slot (activeMask lo hi) i = if lo.toNat ≤ i ∧ i ≤ hi.toNat then 0xF#4 else 0x0#4) ∧
  (∀ lo hi : SlotIndex, lo.toNat ≤ hi.toNat → 1 ≤ rangeWidth lo hi ∧ rangeWidth lo hi ≤ 16) ∧
  activeMask 3 12 = 0x000FFFFFFFFFF000#64 ∧ activeMask 0 1 = 0xFF#64

/-- Range isolation (R55): whatever the modes, the operands and the parameter are, every inactive slot of the result is
that of `a` (slot by slot, and under the mask), and the inactive slots of `b` influence no output. Where `strict_bcd` is
on and the outputs are a draw (D4), that the two draws are equal is the model's choice: a draw depends on the model's
counter alone (log entry 7). -/
def Obligations.RangeIsolation : Prop :=
  ∀ (s : State) (b : Word), s.inputs.WellFormed →
    (∀ i, Active s.inputs.lowIndex s.inputs.highIndex i → slot b i = slot s.inputs.operandB i) →
    ∃ (t t' : State) (o : Outputs),
      step s = .next t ∧ step { s with inputs := { s.inputs with operandB := b } } = .next t' ∧
      t.outputs = some o ∧ t'.outputs = some o ∧
      InactiveSlotsAgree s.inputs.lowIndex s.inputs.highIndex o.result s.inputs.operandA ∧
      o.result &&& ~~~activeMask s.inputs.lowIndex s.inputs.highIndex =
        s.inputs.operandA &&& ~~~activeMask s.inputs.lowIndex s.inputs.highIndex

/-- The complementer is the 15's complement when subtracting and leaves the digit alone when adding, in both modes
(R57). -/
def Obligations.ComplementerIsFifteensComplement : Prop :=
  (∀ d : Digit, complementDigit true d = d ^^^ 0xF#4 ∧ (complementDigit true d).toNat = 15 - d.toNat) ∧
  ∀ d : Digit, complementDigit false d = d

/-- `raw` lies in 0..31 after the binary add and in 0..37 after the decimal correction, and it reaches 37, so 6 bits are
needed (10_state.md R28). -/
def Obligations.RawFitsSixBits : Prop :=
  (∀ (da db : Digit) (c : Bool), (binaryAdd da db c).1 ≤ 31) ∧
  (∀ (dec sub : Bool) (da db : Digit) (c : Bool),
    (decimalAdjust dec sub (binaryAdd da db c).1 (binaryAdd da db c).2).1 ≤ 37) ∧
  ∃ da db : Digit, (decimalAdjust true false (binaryAdd da db true).1 (binaryAdd da db true).2).1 = 37

/-- The digit cell is the table of R67, and with valid BCD digits `raw` stays in the bands that R67 names and the digit
is 0..9. -/
def Obligations.DigitCellIsTheTable : Prop :=
  ∀ (dec sub : Bool) (da db : Digit) (c : Bool),
    let raw := da.toNat + (complementDigit sub db).toNat + c.toNat
    ((digitCell dec sub da db c).1.toNat = (cellTable dec sub raw).1 ∧
      (digitCell dec sub da db c).2 = (cellTable dec sub raw).2) ∧
    (da.toNat ≤ 9 → db.toNat ≤ 9 → dec = true →
      (digitCell dec sub da db c).1.toNat ≤ 9 ∧ (sub = false → raw ≤ 19) ∧ (sub = true → 6 ≤ raw ∧ raw ≤ 25))

/-- `AddSub` is the fixed chain of sixteen cells from slot 0 to slot 15 in which an inactive cell passes its carry on
(R68). -/
def Obligations.FixedRippleComputesAddSub : Prop :=
  ∀ p : Inputs, p.WellFormed → addSub p = .ok (fixedRipple p)

/-! ### Arithmetic laws -/

/-- The hexadecimal addition law (R70). -/
def Obligations.HexAdditionLaw : Prop :=
  ∀ (s : State) (cin : Bool) (hi lo : SlotIndex), lo.toNat ≤ hi.toNat →
    let total := rangeValue 16 lo hi s.inputs.operandA + rangeValue 16 lo hi s.inputs.operandB + cin.toNat
    ∃ (r : Word) (c : Bool),
      exec (.addX cin hi lo) s = .next { s with outputs := some { result := r, carryOut := c } } ∧
      rangeValue 16 lo hi r = total % 16 ^ rangeWidth lo hi ∧
      (c = true ↔ 16 ^ rangeWidth lo hi ≤ total) ∧
      InactiveSlotsAgree lo hi r s.inputs.operandA

/-- The hexadecimal subtraction law (R71): the residue is the non-negative one. -/
def Obligations.HexSubtractionLaw : Prop :=
  ∀ (s : State) (cin : Bool) (hi lo : SlotIndex), lo.toNat ≤ hi.toNat →
    let difference : Int :=
      (rangeValue 16 lo hi s.inputs.operandA : Int) - rangeValue 16 lo hi s.inputs.operandB - cin.toNat
    ∃ (r : Word) (c : Bool),
      exec (.subX cin hi lo) s = .next { s with outputs := some { result := r, carryOut := c } } ∧
      (rangeValue 16 lo hi r : Int) = difference % (16 : Int) ^ rangeWidth lo hi ∧
      (c = true ↔ difference < 0) ∧
      InactiveSlotsAgree lo hi r s.inputs.operandA

/-- The decimal addition law (R72), on valid BCD digits in every active slot; and it fails for some invalid digits. -/
def Obligations.DecimalAdditionLaw : Prop :=
  (∀ (s : State) (cin : Bool) (hi lo : SlotIndex), lo.toNat ≤ hi.toNat →
    validDigits lo hi s.inputs.operandA = true → validDigits lo hi s.inputs.operandB = true →
    let total := rangeValue 10 lo hi s.inputs.operandA + rangeValue 10 lo hi s.inputs.operandB + cin.toNat
    ∃ (r : Word) (c : Bool),
      exec (.addD cin hi lo) s = .next { s with outputs := some { result := r, carryOut := c } } ∧
      rangeValue 10 lo hi r = total % 10 ^ rangeWidth lo hi ∧
      (c = true ↔ 10 ^ rangeWidth lo hi ≤ total) ∧
      validDigits lo hi r = true ∧ InactiveSlotsAgree lo hi r s.inputs.operandA) ∧
  ∃ (s : State) (cin : Bool) (hi lo : SlotIndex) (r : Word) (c : Bool), lo.toNat ≤ hi.toNat ∧ s.strictBcd = false ∧
    exec (.addD cin hi lo) s = .next { s with outputs := some { result := r, carryOut := c } } ∧
    rangeValue 10 lo hi r ≠
      (rangeValue 10 lo hi s.inputs.operandA + rangeValue 10 lo hi s.inputs.operandB + cin.toNat) %
        10 ^ rangeWidth lo hi

/-- The decimal subtraction law (R73), on valid BCD digits in every active slot: the residue is the non-negative one. -/
def Obligations.DecimalSubtractionLaw : Prop :=
  ∀ (s : State) (cin : Bool) (hi lo : SlotIndex), lo.toNat ≤ hi.toNat →
    validDigits lo hi s.inputs.operandA = true → validDigits lo hi s.inputs.operandB = true →
    let difference : Int :=
      (rangeValue 10 lo hi s.inputs.operandA : Int) - rangeValue 10 lo hi s.inputs.operandB - cin.toNat
    ∃ (r : Word) (c : Bool),
      exec (.subD cin hi lo) s = .next { s with outputs := some { result := r, carryOut := c } } ∧
      (rangeValue 10 lo hi r : Int) = difference % (10 : Int) ^ rangeWidth lo hi ∧
      (c = true ↔ difference < 0) ∧
      validDigits lo hi r = true ∧ InactiveSlotsAgree lo hi r s.inputs.operandA

/-- The additive inverse (R74): adding and then subtracting the same operand with the same carry and borrow gives the
first operand back, in hexadecimal mode for every word, in decimal mode on valid digits; and in decimal mode it fails
for the digit A of the rule's example. -/
def Obligations.SubtractionUndoesAddition : Prop :=
  (∀ (s : State) (k : Bool) (hi lo : SlotIndex), lo.toNat ≤ hi.toNat →
    ∃ (r : Word) (c d : Bool),
      exec (.addX k hi lo) s = .next { s with outputs := some { result := r, carryOut := c } } ∧
      let u := s.drive { s.inputs with operandA := r }
      exec (.subX k hi lo) u = .next { u with outputs := some { result := s.inputs.operandA, carryOut := d } }) ∧
  (∀ (s : State) (k : Bool) (hi lo : SlotIndex), lo.toNat ≤ hi.toNat →
    validDigits lo hi s.inputs.operandA = true → validDigits lo hi s.inputs.operandB = true →
    ∃ (r : Word) (c d : Bool),
      exec (.addD k hi lo) s = .next { s with outputs := some { result := r, carryOut := c } } ∧
      let u := s.drive { s.inputs with operandA := r }
      exec (.subD k hi lo) u = .next { u with outputs := some { result := s.inputs.operandA, carryOut := d } }) ∧
  ∀ s : State, s.strictBcd = false → s.inputs.operandA = 0xA → s.inputs.operandB = 0x0 →
    ∃ c d : Bool,
      exec (.addD false 0 0) s = .next { s with outputs := some { result := 0x0, carryOut := c } } ∧
      let u := s.drive { s.inputs with operandA := 0x0 }
      exec (.subD false 0 0) u = .next { u with outputs := some { result := 0x0, carryOut := d } }

/-- Chaining within a word (R106): a range cut in two, the carry out of the lower part presented as the carry in of the
upper part with the same modes, gives the result and the carry out of the single range. It is said for `strict_bcd` off,
the default. -/
def Obligations.ChainedRangesEqualTheSingleRange : Prop :=
  ∀ (s : State) (p : Inputs) (m : SlotIndex), s.strictBcd = false → p.lowIndex.toNat ≤ m.toNat →
    m.toNat < p.highIndex.toNat →
    ∃ (t u v : State) (o₁ o₂ : Outputs),
      transaction s { p with highIndex := m } = .next t ∧ t.outputs = some o₁ ∧
      transaction t { p with lowIndex := m + 1, operandA := o₁.result, carryIn := o₁.carryOut } = .next u ∧
      u.outputs = some o₂ ∧ transaction s p = .next v ∧ v.outputs = some o₂

/-- Chaining across two words (R106, R70, R72): two full-word additions, the carry out of the low words presented with the
high words, add 32-digit numbers; in decimal mode on valid digits. -/
def Obligations.ChainedWordsAddThirtyTwoDigits : Prop :=
  ∀ (s : State) (dec cin : Bool) (aLow aHigh bLow bHigh : Word),
    (dec = true → validDigits 0 15 aLow = true ∧ validDigits 0 15 aHigh = true ∧ validDigits 0 15 bLow = true ∧
      validDigits 0 15 bHigh = true) →
    let base := if dec then 10 else 16
    let value := fun w : Word => rangeValue base 0 15 w
    ∃ (t u : State) (o₁ o₂ : Outputs),
      transaction s
        { decimalMode := dec, subtract := false, operandA := aLow, operandB := bLow, carryIn := cin, lowIndex := 0,
          highIndex := 15 } = .next t ∧
      t.outputs = some o₁ ∧
      transaction t
        { decimalMode := dec, subtract := false, operandA := aHigh, operandB := bHigh, carryIn := o₁.carryOut,
          lowIndex := 0, highIndex := 15 } = .next u ∧
      u.outputs = some o₂ ∧
      value o₁.result + base ^ 16 * value o₂.result + base ^ 32 * o₂.carryOut.toNat =
        value aLow + base ^ 16 * value aHigh + (value bLow + base ^ 16 * value bHigh) + cin.toNat

/-! ### The specializations -/

/-- `INC.M` adds one to the ten decimal digits in slots 3 to 12, modulo `10^10`, and copies the other slots (R82), for
valid digits there and either setting of the parameter. -/
def Obligations.IncMAddsOneToTenDigits : Prop :=
  ∀ (s : State) (a : Word), validDigits 3 12 a = true →
    ∃ (r : Word) (c : Bool),
      runIncM a s = .next { s with inputs := incMInputs a, outputs := some { result := r, carryOut := c } } ∧
      rangeValue 10 3 12 r = (rangeValue 10 3 12 a + 1) % 10 ^ 10 ∧
      (∀ i, i < 16 → i < 3 ∨ 12 < i → slot r i = slot a i)

/-- `INC.X` adds one to the two decimal digits in slots 0 and 1, modulo 100, and copies the other slots (R83), for valid
digits there and either setting of the parameter. -/
def Obligations.IncXAddsOneToTwoDigits : Prop :=
  ∀ (s : State) (a : Word), validDigits 0 1 a = true →
    ∃ (r : Word) (c : Bool),
      runIncX a s = .next { s with inputs := incXInputs a, outputs := some { result := r, carryOut := c } } ∧
      rangeValue 10 0 1 r = (rangeValue 10 0 1 a + 1) % 100 ∧
      (∀ i, 2 ≤ i → i < 16 → slot r i = slot a i)

/-- Nothing distinguishes the specializations from any other `ADD.D` transaction, for every digit value (R84). -/
def Obligations.IncrementsAreAddDTransactions : Prop :=
  (∀ (s : State) (a : Word), runIncM a s = exec (.addD true 12 3) (s.drive (incMInputs a))) ∧
  ∀ (s : State) (a : Word), runIncX a s = exec (.addD true 1 0) (s.drive (incXInputs a))

/-! ### Whole-machine rules -/

/-- The outputs on the ports always belong to the inputs on the ports: every step keeps it, from every state that has it
(10_state.md R15, R29; 40_datapath.md R55, R68, R72, R73). -/
def Obligations.StepKeepsOutputsBelongToInputs : Prop :=
  ∀ s t : State, OutputsBelongToInputs s → step s = .next t → OutputsBelongToInputs t

/-- The invariant holds after reset, and the host establishes it whenever it drives an input set or a control word onto the
ports. That no output stands on the ports then is the model's reading of R102, R22 and R29 (log entry 3). -/
def Obligations.ResetAndDriveGiveOutputsBelongToInputs : Prop :=
  OutputsBelongToInputs State.reset ∧ (∀ (s : State) (p : Inputs), OutputsBelongToInputs (s.drive p)) ∧
  (∀ (s : State) (nbits w : Nat), OutputsBelongToInputs (s.withFetchWord nbits w)) ∧
  ∀ (s : State) (p : Inputs) (nbits w : Nat),
    State.reset.outputs = none ∧ (s.drive p).outputs = none ∧ (s.withFetchWord nbits w).outputs = none

/-- The outputs are a function of the inputs alone: two states with the same inputs give the same outputs, whatever else
they hold (R75), and computing a transaction again gives the same outputs (20_memory.md R34). It is said for
`strict_bcd` off, the default, since a draw of D4 depends on the model's counter. -/
def Obligations.OutputsAreAFunctionOfInputs : Prop :=
  (∀ s s' : State, s.strictBcd = false → s'.strictBcd = false → s.inputs = s'.inputs → s.inputs.WellFormed →
    ∃ t t' : State, step s = .next t ∧ step s' = .next t' ∧ t.outputs = t'.outputs ∧ t.outputs ≠ none) ∧
  ∀ s t : State, s.strictBcd = false → step s = .next t → step t = .next t

/-- A transaction presented after reset gives exactly the outputs it gives at any other time (R102), with `strict_bcd` at
its default. -/
def Obligations.ResetHasNoEffectOnOutputs : Prop :=
  ∀ (s : State) (p : Inputs), s.strictBcd = false → p.WellFormed →
    ∃ t u : State, transaction State.reset p = .next t ∧ transaction s p = .next u ∧ t.outputs = u.outputs ∧
      t.outputs ≠ none

/-- Transactions are independent (R37): in a run of well-formed transactions, with `strict_bcd` off, the outputs of each
are those its own inputs give by the fixed ripple chain of R68, whatever stands before it. -/
def Obligations.TransactionsAreIndependent : Prop :=
  ∀ (ps : List Inputs) (s : State), s.strictBcd = false → (∀ p ∈ ps, p.WellFormed) →
    ∃ u : State, runTransactions ps s = .next (u, ps.map fixedRipple) ∧ u.strictBcd = false

/-- An inverted range refuses its transaction, and a run that holds one anywhere is refused as a whole, whatever the other
transactions are (R87). -/
def Obligations.InvertedRangeRefusesTheWholeRun : Prop :=
  ∀ (ps : List Inputs) (s : State), (∃ p ∈ ps, p.highIndex.toNat < p.lowIndex.toNat) →
    runTransactions ps s = .refused .invertedRange

/-! ### The host around the block -/

/-- A host's memory keeps a word apart from every other word, in either byte order (20_memory.md R31; log entry 8). -/
def Obligations.HostBytesDetermineTheWord : Prop :=
  (∀ w v : Word, hostBytes w = hostBytes v → w = v) ∧
  ∀ w : Word, (hostBytes w).length = 8 ∧
    ((hostBytes w)[0]? = some (w.extractLsb' 0 8) ∨ (hostBytes w)[0]? = some (w.extractLsb' 56 8))

/-- A block operation of a host program writes its result variable and, if it names one, its carry variable, with the
outputs of its transaction; every other host variable stays, and the next step follows (30_encoding.md R49, R52; log
entry 13). -/
def Obligations.CallerBlockWritesOnlyItsVariables : Prop :=
  ∀ (k : CallerState) (o : BlockOp) (a b : Word) (cin : Bool), o.lowIndex.toNat ≤ o.highIndex.toNat →
    evalWord k o.a = .ok a → evalWord k o.b = .ok b → evalBit k o.carryIn = .ok cin →
    ∃ (k' : CallerState) (out : Outputs),
      callerBlock k o = .ok k' ∧
      transaction k.block
        { decimalMode := (o.instr cin).decimalMode, subtract := (o.instr cin).subtract, operandA := a, operandB := b,
          carryIn := cin, lowIndex := o.lowIndex, highIndex := o.highIndex } = .next k'.block ∧
      k'.block.outputs = some out ∧ k'.nextStep = k.nextStep + 1 ∧
      lookupVar k'.words o.result = some out.result ∧
      (∀ v, v ≠ o.result → lookupVar k'.words v = lookupVar k.words v) ∧
      (∀ v, o.carryOut = some v → lookupVar k'.bits v = some out.carryOut) ∧
      (∀ v, o.carryOut ≠ some v → lookupVar k'.bits v = lookupVar k.bits v)
end

