-- ==== Sys2Proof/Laws/Decode.lean ====
section
/-! SUPPORT. The bits and the fields of a control word that is put together from its fields (30_encoding.md R44, R45). -/

namespace Sys2Proof.Laws

open Sys2Proof.Machine

/-- Bit `k` of an opcode, a carry-in and two indices side by side. -/
theorem opcode_layout_getLsbD (op : BitVec 2) (c : Bool) (hi lo : SlotIndex) (k : Nat) :
    BitVec.getLsbD (w := 11) (op ++ BitVec.ofBool c ++ hi ++ lo) k =
      if k < 4 then lo.getLsbD k
      else if k < 8 then hi.getLsbD (k - 4)
      else if k < 9 then c
      else op.getLsbD (k - 9) := by
  change BitVec.getLsbD (w := 2 + 1 + 4 + 4) _ k = _
  rw [BitVec.getLsbD_append, BitVec.getLsbD_append, BitVec.getLsbD_append]
  by_cases h1 : k < 4
  · simp [h1]
  by_cases h2 : k < 8
  · simp [h1, h2, show k - 4 < 4 by omega]
  by_cases h3 : k < 9
  · simp [h1, h2, h3, show ¬k - 4 < 4 by omega, show k - 4 - 4 = 0 by omega]
  · simp [h1, h2, h3, show ¬k - 4 < 4 by omega, show ¬k - 4 - 4 < 1 by omega, show k - 4 - 4 - 1 = k - 9 by omega]

/-- The two mode bits side by side are an opcode (R46). -/
theorem mode_layout (dec sub c : Bool) (hi lo : SlotIndex) :
    (BitVec.ofBool dec ++ BitVec.ofBool sub ++ BitVec.ofBool c ++ hi ++ lo : ControlWord) =
      ((BitVec.ofBool dec ++ BitVec.ofBool sub : BitVec 2) ++ BitVec.ofBool c ++ hi ++ lo : ControlWord) := rfl

/-- The fields of an opcode, a carry-in and two indices side by side (R45). -/
theorem fields_of_opcode_layout (op : BitVec 2) (c : Bool) (hi lo : SlotIndex) :
    let cw : ControlWord := op ++ BitVec.ofBool c ++ hi ++ lo
    cwDecimalMode cw = op.getLsbD 1 ∧ cwSubtract cw = op.getLsbD 0 ∧ cwCarryIn cw = c ∧ cwHighIndex cw = hi ∧
      cwLowIndex cw = lo := by
  refine ⟨?_, ?_, ?_, ?_, ?_⟩
  · rw [cwDecimalMode, opcode_layout_getLsbD]; rfl
  · rw [cwSubtract, opcode_layout_getLsbD]; rfl
  · rw [cwCarryIn, opcode_layout_getLsbD]; rfl
  · apply BitVec.eq_of_getLsbD_eq
    intro k hk
    rw [cwHighIndex, BitVec.getLsbD_extractLsb', opcode_layout_getLsbD, if_neg (by omega), if_pos (by omega)]
    simp [hk]
  · apply BitVec.eq_of_getLsbD_eq
    intro k hk
    rw [cwLowIndex, BitVec.getLsbD_extractLsb', opcode_layout_getLsbD, if_pos (by omega)]
    simp [hk]

/-- The fields of the control word that the ports present are the port values (R44, R45). -/
theorem fields_of_ports (p : Inputs) :
    cwDecimalMode (controlWordOf p) = p.decimalMode ∧ cwSubtract (controlWordOf p) = p.subtract ∧
    cwCarryIn (controlWordOf p) = p.carryIn ∧ cwHighIndex (controlWordOf p) = p.highIndex ∧
    cwLowIndex (controlWordOf p) = p.lowIndex := by
  have h := fields_of_opcode_layout (BitVec.ofBool p.decimalMode ++ BitVec.ofBool p.subtract) p.carryIn p.highIndex
    p.lowIndex
  rw [controlWordOf, mode_layout]
  refine ⟨h.1.trans ?_, h.2.1.trans ?_, h.2.2⟩
  · cases p.decimalMode <;> cases p.subtract <;> rfl
  · cases p.decimalMode <;> cases p.subtract <;> rfl

end Sys2Proof.Laws
end

