-- ==== Sys2Proof/Laws/PerInstr.lean ====
section
/-! SUPPORT. For every operation: its control word has the opcode of its row of the opcode table (30_encoding.md R46),
under the row's mask and match. -/

namespace Sys2Proof.Laws.TableMatch

/-- The row's match value (R46, opcode_table.json). -/
def rowMatch : Instr → ControlWord
  | .addX _ _ _ => 0x000#11
  | .subX _ _ _ => 0x200#11
  | .addD _ _ _ => 0x400#11
  | .subD _ _ _ => 0x600#11

/-- The control word agrees with its row under the mask 0x600. -/
def Statement (i : Instr) : Prop := encode i &&& 0x600#11 = rowMatch i

/-- The mask keeps the opcode and clears the operand fields below it. -/
theorem mask_keeps_opcode (op : BitVec 2) (c : Bool) (hi lo : SlotIndex) :
    ((op ++ BitVec.ofBool c ++ hi ++ lo : ControlWord) &&& 0x600#11) = (op ++ 0#9 : ControlWord) := by
  apply BitVec.eq_of_getLsbD_eq
  intro k hk
  have tail : BitVec.getLsbD (w := 11) (op ++ 0#9) k = if k < 9 then false else op.getLsbD (k - 9) := by
    change BitVec.getLsbD (w := 2 + 9) _ k = _
    rw [BitVec.getLsbD_append]
    by_cases h : k < 9 <;> simp [h]
  rw [BitVec.getLsbD_and, opcode_layout_getLsbD, tail]
  have : k < 9 ∨ k = 9 ∨ k = 10 := by omega
  rcases this with h | rfl | rfl
  · have : (0x600#11).getLsbD k = false := by
      have : ∀ j : Fin 9, (0x600#11).getLsbD j.val = false := by decide
      exact this ⟨k, h⟩
    simp [this, h]
  · simp
  · simp

theorem addX (carryIn : Bool) (highIndex lowIndex : SlotIndex) : Statement (.addX carryIn highIndex lowIndex) :=
  mask_keeps_opcode 0b00#2 carryIn highIndex lowIndex

theorem subX (carryIn : Bool) (highIndex lowIndex : SlotIndex) : Statement (.subX carryIn highIndex lowIndex) :=
  mask_keeps_opcode 0b01#2 carryIn highIndex lowIndex

theorem addD (carryIn : Bool) (highIndex lowIndex : SlotIndex) : Statement (.addD carryIn highIndex lowIndex) :=
  mask_keeps_opcode 0b10#2 carryIn highIndex lowIndex

theorem subD (carryIn : Bool) (highIndex lowIndex : SlotIndex) : Statement (.subD carryIn highIndex lowIndex) :=
  mask_keeps_opcode 0b11#2 carryIn highIndex lowIndex

end Sys2Proof.Laws.TableMatch
end

