-- ==== Sys2Proof/Laws/Slots.lean ====
section
/-! SUPPORT. Reading and writing the slots of a word (00_scope.md R10): a written slot reads back, every other slot is
left alone, and the sixteen slots determine the word. -/

namespace Sys2Proof.Laws

open Sys2Proof.Machine

theorem slot_getLsbD (w : Word) (i k : Nat) : (slot w i).getLsbD k = (decide (k < 4) && w.getLsbD (4 * i + k)) := by
  simp [slot]

theorem slotMask_getLsbD (i k : Nat) :
    (slotMask i).getLsbD k = (decide (k < 64) && decide (4 * i ≤ k) && decide (k < 4 * i + 4)) := by
  have h : ∀ j, (0xF#64).getLsbD j = decide (j < 4) := fun j => by
    have h15 : (15 : Nat) = 2 ^ 4 - 1 := rfl
    simp only [BitVec.getLsbD_ofNat, h15, Nat.testBit_two_pow_sub_one]
    by_cases hj : j < 4
    · simp [hj]; omega
    · simp [hj]
  rw [slotMask, BitVec.getLsbD_shiftLeft, h]
  by_cases h1 : k < 64 <;> by_cases h2 : 4 * i ≤ k <;> by_cases h3 : k < 4 * i + 4 <;> simp [h1, h2, h3] <;> omega

theorem setSlot_getLsbD (w : Word) (i : Nat) (d : Digit) (k : Nat) :
    (setSlot w i d).getLsbD k =
      if 4 * i ≤ k ∧ k < 4 * i + 4 then decide (k < 64) && d.getLsbD (k - 4 * i) else w.getLsbD k := by
  rw [setSlot, BitVec.getLsbD_or, BitVec.getLsbD_and, BitVec.getLsbD_not, slotMask_getLsbD, BitVec.getLsbD_shiftLeft,
    BitVec.getLsbD_setWidth]
  by_cases h1 : k < 64
  · by_cases h2 : 4 * i ≤ k
    · by_cases h3 : k < 4 * i + 4
      · have : k - 4 * i < 64 := by omega
        simp [h1, h2, h3, this]
      · have : d.getLsbD (k - 4 * i) = false := BitVec.getLsbD_of_ge _ _ (by omega)
        simp [h1, h2, h3, this]
    · have : k < 4 * i := by omega
      simp [h1, h2, this]
  · have : w.getLsbD k = false := BitVec.getLsbD_of_ge _ _ (by omega)
    simp [h1, this]

/-- A written slot reads back. -/
@[simp] theorem slot_setSlot_same (w : Word) (i : Nat) (d : Digit) (h : i < 16) : slot (setSlot w i d) i = d := by
  apply BitVec.eq_of_getLsbD_eq
  intro k hk
  rw [slot_getLsbD, setSlot_getLsbD]
  have : 4 * i + k < 64 := by omega
  simp [hk, this]

/-- Writing a slot leaves every other slot alone. -/
theorem slot_setSlot_ne (w : Word) (i j : Nat) (d : Digit) (h : i ≠ j) : slot (setSlot w i d) j = slot w j := by
  apply BitVec.eq_of_getLsbD_eq
  intro k hk
  rw [slot_getLsbD, slot_getLsbD, setSlot_getLsbD, if_neg (by omega)]

/-- The sixteen slots determine the word. -/
theorem word_eq_of_slots (w v : Word) (h : ∀ i, i < 16 → slot w i = slot v i) : w = v := by
  apply BitVec.eq_of_getLsbD_eq
  intro k hk
  have := congrArg (fun d => BitVec.getLsbD d (k % 4)) (h (k / 4) (by omega))
  simp only [slot_getLsbD] at this
  have h4 : k % 4 < 4 := Nat.mod_lt _ (by omega)
  rw [show 4 * (k / 4) + k % 4 = k from Nat.div_add_mod k 4] at this
  simpa [h4] using this

/-- Bit `k` of the active-slot mask is bit `k` of an active slot. -/
theorem activeMask_getLsbD (lo hi : SlotIndex) (k : Nat) :
    (activeMask lo hi).getLsbD k = (decide (k < 64) && decide (Active lo hi (k / 4))) := by
  have key : ∀ n, (((List.range n).foldr (fun i m => if Active lo hi i then slotMask i ||| m else m) 0) : Word).getLsbD k =
      (decide (k < 64) && decide (k < 4 * n) && decide (Active lo hi (k / 4))) := by
    have gen : ∀ (l : List Nat),
        ((l.foldr (fun i m => if Active lo hi i then slotMask i ||| m else m) 0) : Word).getLsbD k =
          (decide (k < 64) && decide (k / 4 ∈ l) && decide (Active lo hi (k / 4))) := by
      intro l
      induction l with
      | nil => simp
      | cons i l ih =>
        rw [List.foldr_cons]
        by_cases ha : Active lo hi i
        · rw [if_pos ha, BitVec.getLsbD_or, slotMask_getLsbD, ih]
          by_cases hk : k / 4 = i
          · subst hk
            have h1 : 4 * (k / 4) ≤ k := by omega
            have h2 : k < 4 * (k / 4) + 4 := by omega
            simp only [h1, h2, decide_eq_true ha, List.mem_cons, true_or, decide_true, Bool.and_true]
            cases decide (k < 64) <;> simp
          · have h1 : ¬(4 * i ≤ k ∧ k < 4 * i + 4) := by omega
            have : (decide (k < 64) && decide (4 * i ≤ k) && decide (k < 4 * i + 4)) = false := by
              by_cases h2 : 4 * i ≤ k
              · have : ¬k < 4 * i + 4 := by omega
                simp [this]
              · simp [h2]
            rw [this]
            simp [hk]
        · rw [if_neg ha, ih]
          by_cases hk : k / 4 = i
          · subst hk
            simp [ha]
          · simp [hk]
    intro n
    rw [gen]
    have : decide (k / 4 ∈ List.range n) = decide (k < 4 * n) := by
      rw [decide_eq_decide, List.mem_range]; omega
    rw [this]
  rw [activeMask, key]
  by_cases h : k < 64
  · have : k < 4 * 16 := h
    simp [h]
  · simp [h]

/-- Merging two words under the active-slot mask takes each slot from one of them. -/
theorem slot_merge (lo hi : SlotIndex) (w v : Word) (i : Nat) (h : i < 16) :
    slot ((w &&& activeMask lo hi) ||| (v &&& ~~~activeMask lo hi)) i =
      if Active lo hi i then slot w i else slot v i := by
  apply BitVec.eq_of_getLsbD_eq
  intro k hk
  have hb : 4 * i + k < 64 := by omega
  have hd : (4 * i + k) / 4 = i := by omega
  simp only [slot_getLsbD, BitVec.getLsbD_or, BitVec.getLsbD_and, BitVec.getLsbD_not, activeMask_getLsbD, hb, hd,
    decide_true, Bool.true_and]
  by_cases ha : Active lo hi i
  · simp [decide_eq_true ha, if_pos ha, slot_getLsbD]
  · simp [decide_eq_false ha, if_neg ha, slot_getLsbD]

/-- `validDigits` says that every active slot holds 0..9. -/
theorem validDigits_iff (lo hi : SlotIndex) (w : Word) :
    validDigits lo hi w = true ↔ ∀ i, Active lo hi i → (slot w i).toNat ≤ 9 := by
  simp only [validDigits, isBcdDigit, List.all_eq_true, List.mem_range, Bool.or_eq_true, Bool.not_eq_true',
    decide_eq_false_iff_not, decide_eq_true_eq]
  constructor
  · intro h i ha
    rcases h i (by have := hi.isLt; omega) with h' | h'
    · exact absurd ha h'
    · exact h'
  · intro h i _
    by_cases ha : Active lo hi i
    · exact .inr (h i ha)
    · exact .inl ha

end Sys2Proof.Laws
end

