-- ==== Sys2Proof/Laws/Ripple.lean ====
section
/-! SUPPORT. What the carry chain does (40_datapath.md R55, R61, R62), said once: the running carry after each slot, the
digit written into each active slot, and every other slot left alone. -/

namespace Sys2Proof.Laws

open Sys2Proof.Machine

/-- The running carry before the `n`-th cell above slot `i`, where `c` is the carry into slot `i`. -/
def carryInto (dec sub : Bool) (a b : Word) (i : Nat) (c : Bool) : Nat → Bool
  | 0 => c
  | n + 1 => (digitCell dec sub (slot a (i + n)) (slot b (i + n)) (carryInto dec sub a b i c n)).2

variable (dec sub : Bool) (a b : Word)

/-- The chain of carries may be read from its second cell on. -/
theorem carryInto_tail (i : Nat) (c : Bool) (n : Nat) :
    carryInto dec sub a b (i + 1) (digitCell dec sub (slot a i) (slot b i) c).2 n = carryInto dec sub a b i c (n + 1) := by
  induction n with
  | zero => rfl
  | succ n ih => rw [carryInto, ih, show i + 1 + n = i + (n + 1) by omega]; rfl

/-- The carry after the last cell. -/
theorem ripple_carry (n i : Nat) (r : Word) (c : Bool) :
    (ripple dec sub a b n i r c).2 = carryInto dec sub a b i c n := by
  induction n generalizing i r c with
  | zero => rfl
  | succ n ih => rw [ripple, ih, carryInto_tail]

/-- A slot outside the cells keeps its digit. -/
theorem ripple_slot_outside (n i : Nat) (r : Word) (c : Bool) (j : Nat) (h : j < i ∨ i + n ≤ j) :
    slot (ripple dec sub a b n i r c).1 j = slot r j := by
  induction n generalizing i r c with
  | zero => rfl
  | succ n ih => rw [ripple, ih _ _ _ (by omega), slot_setSlot_ne _ _ _ _ (by omega)]

/-- The digit that the `m`-th cell above slot `i` writes. -/
theorem ripple_slot_inside (n i : Nat) (r : Word) (c : Bool) (m : Nat) (hm : m < n) (h : i + n ≤ 16) :
    slot (ripple dec sub a b n i r c).1 (i + m) =
      (digitCell dec sub (slot a (i + m)) (slot b (i + m)) (carryInto dec sub a b i c m)).1 := by
  induction n generalizing i r c m with
  | zero => omega
  | succ n ih =>
    rw [ripple]
    cases m with
    | zero => rw [ripple_slot_outside _ _ _ _ _ _ _ _ _ (by omega)]; simp [carryInto, show i < 16 by omega]
    | succ m =>
      have := ih (i + 1) (setSlot r i (digitCell dec sub (slot a i) (slot b i) c).1)
        (digitCell dec sub (slot a i) (slot b i) c).2 m (by omega) (by omega)
      rwa [show i + 1 + m = i + (m + 1) by omega, carryInto_tail] at this

/-- Two runs of cells, one after the other, are one run of cells. -/
theorem ripple_append (n m i : Nat) (r : Word) (c : Bool) :
    ripple dec sub a b (n + m) i r c =
      ripple dec sub a b m (i + n) (ripple dec sub a b n i r c).1 (ripple dec sub a b n i r c).2 := by
  induction n generalizing i r c with
  | zero => simp [ripple]
  | succ n ih =>
    rw [show n + 1 + m = (n + m) + 1 by omega, ripple, ripple, ih, show i + 1 + n = i + (n + 1) by omega]

/-- Only the slots of the cells are read. -/
theorem ripple_congr (a' b' : Word) (n i : Nat) (r : Word) (c : Bool)
    (h : ∀ j, i ≤ j → j < i + n → slot a j = slot a' j ∧ slot b j = slot b' j) :
    ripple dec sub a b n i r c = ripple dec sub a' b' n i r c := by
  induction n generalizing i r c with
  | zero => rfl
  | succ n ih =>
    obtain ⟨ha, hb⟩ := h i (by omega) (by omega)
    rw [ripple, ripple, ha, hb, ih _ _ _ fun j h1 h2 => h j (by omega) (by omega)]

end Sys2Proof.Laws
end

