-- ==== Sys2Proof/Laws/State.lean ====
section
/-! SUPPORT. One lemma for each field of the state and of the ports under each update, so that no later proof unfolds a
record update. -/

namespace Sys2Proof.Laws

open Sys2Proof.Machine

variable (s : State) (p : Inputs) (dec sub c : Bool) (hi lo : SlotIndex) (cw : ControlWord) (nbits w : Nat)

@[simp] theorem drive_inputs : (s.drive p).inputs = p := rfl
@[simp] theorem drive_outputs : (s.drive p).outputs = none := rfl
@[simp] theorem drive_strictBcd : (s.drive p).strictBcd = s.strictBcd := rfl
@[simp] theorem drive_draws : (s.drive p).draws = s.draws := rfl

@[simp] theorem withControl_decimalMode : (p.withControl dec sub c hi lo).decimalMode = dec := rfl
@[simp] theorem withControl_subtract : (p.withControl dec sub c hi lo).subtract = sub := rfl
@[simp] theorem withControl_carryIn : (p.withControl dec sub c hi lo).carryIn = c := rfl
@[simp] theorem withControl_highIndex : (p.withControl dec sub c hi lo).highIndex = hi := rfl
@[simp] theorem withControl_lowIndex : (p.withControl dec sub c hi lo).lowIndex = lo := rfl
@[simp] theorem withControl_operandA : (p.withControl dec sub c hi lo).operandA = p.operandA := rfl
@[simp] theorem withControl_operandB : (p.withControl dec sub c hi lo).operandB = p.operandB := rfl

@[simp] theorem withControlWord_inputs : (withControlWord s cw).inputs =
    s.inputs.withControl (cwDecimalMode cw) (cwSubtract cw) (cwCarryIn cw) (cwHighIndex cw) (cwLowIndex cw) := rfl
@[simp] theorem withControlWord_outputs : (withControlWord s cw).outputs = none := rfl
@[simp] theorem withControlWord_strictBcd : (withControlWord s cw).strictBcd = s.strictBcd := rfl
@[simp] theorem withControlWord_draws : (withControlWord s cw).draws = s.draws := rfl

/-- Driving a control word is driving an input set. -/
theorem withControlWord_eq_drive : withControlWord s cw = s.drive (withControlWord s cw).inputs := rfl

theorem withFetchWord_eq : s.withFetchWord nbits w = withControlWord s (controlWordOfNumber nbits w) := rfl

@[simp] theorem reset_inputs : State.reset.inputs = Inputs.idle := rfl
@[simp] theorem reset_outputs : State.reset.outputs = none := rfl
@[simp] theorem reset_strictBcd : State.reset.strictBcd = false := rfl
@[simp] theorem reset_draws : State.reset.draws = 0 := rfl

/-- The ports driven to their own values are the ports. -/
@[simp] theorem withControl_self :
    p.withControl p.decimalMode p.subtract p.carryIn p.highIndex p.lowIndex = p := rfl

end Sys2Proof.Laws
end

