-- ==== Sys2Proof/Laws/Transact.lean ====
section
/-! SUPPORT. What one transaction can do, said once: refused on an inverted range (60_exceptions.md R87), and else
completed with computed or drawn outputs (40_datapath.md R64, 92_eei_decisions.md D4). -/

namespace Sys2Proof.Laws

open Sys2Proof.Machine

/-- The outputs that `AddSub` computes for a well-formed range. -/
def computedOutputs (p : Inputs) : Outputs :=
  let chain := ripple p.decimalMode p.subtract p.operandA p.operandB (rangeWidth p.lowIndex p.highIndex)
    p.lowIndex.toNat p.operandA (seedCarry p.carryIn p.subtract)
  { result := chain.1, carryOut := externalCarry chain.2 p.subtract }

theorem addSub_wellFormed (p : Inputs) (h : p.lowIndex.toNat ≤ p.highIndex.toNat) : addSub p = .ok (computedOutputs p) := by
  rw [addSub, if_neg (by omega)]; rfl

theorem addSub_inverted (p : Inputs) (h : p.highIndex.toNat < p.lowIndex.toNat) :
    addSub p = .error .invertedRange := by
  rw [addSub, if_pos h]

/-- Everything one transaction can do. -/
theorem transact_cases (p : Inputs) (s : State) :
    (p.highIndex.toNat < p.lowIndex.toNat ∧ transact p s = .refused .invertedRange) ∨
    (p.lowIndex.toNat ≤ p.highIndex.toNat ∧ drawsOutputs s.strictBcd p = false ∧
      transact p s = .next { s with outputs := some (computedOutputs p) }) ∨
    (p.lowIndex.toNat ≤ p.highIndex.toNat ∧ drawsOutputs s.strictBcd p = true ∧
      transact p s = .next { s with outputs := some (drawnOutputs p s.draws), draws := s.draws + 1 }) := by
  by_cases h : p.highIndex.toNat < p.lowIndex.toNat
  · exact .inl ⟨h, by rw [transact, addSub_inverted p h]⟩
  · have hw : p.lowIndex.toNat ≤ p.highIndex.toNat := by omega
    rw [transact, addSub_wellFormed p hw]
    cases hd : drawsOutputs s.strictBcd p
    · exact .inr (.inl ⟨hw, rfl, by simp⟩)
    · exact .inr (.inr ⟨hw, rfl, by simp⟩)

/-- Outputs are computed, not drawn, in hexadecimal mode. -/
@[simp] theorem drawsOutputs_hex (strict : Bool) (p : Inputs) (h : p.decimalMode = false) :
    drawsOutputs strict p = false := by
  simp [drawsOutputs, h]

/-- Outputs are computed, not drawn, where `strict_bcd` is off. -/
@[simp] theorem drawsOutputs_default (p : Inputs) : drawsOutputs false p = false := rfl

/-- Outputs are computed, not drawn, on valid BCD digits. -/
theorem drawsOutputs_valid (strict : Bool) (p : Inputs) (ha : validDigits p.lowIndex p.highIndex p.operandA = true)
    (hb : validDigits p.lowIndex p.highIndex p.operandB = true) : drawsOutputs strict p = false := by
  simp [drawsOutputs, ha, hb]

/-- Every operation is one transaction on the ports with its own mode bits, carry-in and range. -/
theorem exec_eq_transact (i : Instr) (s : State) :
    exec i s =
      transact (s.inputs.withControl i.decimalMode i.subtract i.carryIn i.highIndex i.lowIndex) s := by
  cases i <;> rfl

end Sys2Proof.Laws
end

