-- ==== Sys2Proof/Tests/Slice0.lean ====
section
/-! SUPPORT. The tests of this package: control words written out from 30_encoding.md R44, single transactions with
their expected outputs taken from 95_test_vectors.md, the well-formedness smoke, and for each statement with hypotheses
a concrete state that meets them. -/

namespace Sys2Proof.Tests

open Sys2Proof Sys2Proof.Machine

/-! ### Helpers -/

/-- A state whose ports hold an input set, with no transaction computed. -/
def ports (dec sub : Bool) (a b : Word) (cin : Bool) (lo hi : SlotIndex) (strict : Bool := false) : State :=
  { inputs :=
      { decimalMode := dec, subtract := sub, operandA := a, operandB := b, carryIn := cin, lowIndex := lo,
        highIndex := hi },
    outputs := none, strictBcd := strict, draws := 0 }

/-- The state that an outcome answers with, if it does. -/
def next? {φ ρ : Type} : Host.Outcome State φ ρ → Option State
  | .next t => some t
  | .fault _ => none
  | .refused _ => none

/-- The result and the carry out after an outcome. -/
def driven {φ ρ : Type} (o : Host.Outcome State φ ρ) : Option (Word × Bool) :=
  ((next? o).bind State.outputs).map fun out => (out.result, out.carryOut)

/-- The refusal of an outcome. -/
def refusal? {σ φ ρ : Type} : Host.Outcome σ φ ρ → Option ρ
  | .next _ => none
  | .fault _ => none
  | .refused r => some r

theorem eq_next_of_next? {φ ρ : Type} (o : Host.Outcome State φ ρ) (t : State) (h : next? o = some t) : o = .next t := by
  cases o with
  | next s => simpa [next?] using h
  | fault f => cases h
  | refused r => cases h

/-! ### Well-formedness smoke -/

theorem test_inverted_add_is_ill_formed : ¬(Instr.addX false 0 1).WellFormed := by decide
theorem test_inverted_sub_is_ill_formed : ¬(Instr.subD true 14 15).WellFormed := by decide
theorem test_single_slot_is_well_formed : (Instr.subX true 15 15).WellFormed := by decide
theorem test_inverted_word_is_rejected : decode 0x401#11 = .error .invertedRange := by decide

/-! ### Decoding: words written out from R44 as decimal_mode, subtract, carry_in, high_index, low_index -/

theorem test_decode_addX : decode 0b00100110010#11 = .ok (.addX true 3 2) := by decide
theorem test_decode_subX : decode 0b01011111000#11 = .ok (.subX false 15 8) := by decide
theorem test_decode_addD : decode 0b10111000011#11 = .ok (.addD true 12 3) := by decide
theorem test_decode_subD : decode 0b11100010000#11 = .ok (.subD true 1 0) := by decide
theorem test_encode_subD : encode (.subD true 1 0) = 0b11100010000#11 := by decide
theorem test_table_word : decodeTableWord 16 0x0174 = some (.addX true 7 4) := by decide
theorem test_table_word_high_bit : decodeTableWord 16 0x0974 = none := by decide

/-! ### One transaction each (95_test_vectors.md L2) -/

/-- AX-6: isolation, wrap and carry-in. -/
theorem test_addX_isolation :
    driven (step (ports false false 0xAAAAAAAAAAAAAAAA 0x5555555555555555 true 4 7)) =
      some (0xAAAAAAAA0000AAAA, true) := by decide
/-- AX-4: mixed carries over the full range. -/
theorem test_addX_full :
    driven (exec (.addX false 15 0) (ports true true 0x123456789ABCDEF0 0x0FEDCBA987654321 true 1 0)) =
      some (0x2222222222222211, false) := by decide
/-- SX-7: isolation without a borrow. -/
theorem test_subX_isolation :
    driven (step (ports false true 0xAAAAAAAAAAAAAAAA 0x1111111111111111 false 8 11)) =
      some (0xAAAA9999AAAAAAAA, false) := by decide
/-- SX-5: equal operands with a borrow in. -/
theorem test_subX_borrow_in :
    driven (step (ports false true 0x1234 0x1234 true 0 3)) = some (0xFFFF, true) := by decide
/-- AD-15: invalid digits outside the range are kept. -/
theorem test_addD_isolation :
    driven (step (ports true false 0xCAFE0000BEEF4321 0x5678 false 0 3)) = some (0xCAFE0000BEEF9999, false) := by decide
/-- AD-14: invalid digits inside the range follow the algorithm. -/
theorem test_addD_invalid :
    driven (step (ports true false 0xFFFF 0x0 true 0 3)) = some (0x6666, true) := by decide
/-- SD-11: a negative difference is a ten's complement. -/
theorem test_subD_negative :
    driven (step (ports true true 0x1234567890123456 0x9876543210987654 false 0 15)) =
      some (0x1358024679135802, true) := by decide
/-- SD-8: an invalid digit in `a`. -/
theorem test_subD_invalid : driven (step (ports true true 0xA 0x0 false 0 0)) = some (0xA, false) := by decide
/-- Source vector L1-4 (INC.M). -/
theorem test_incM_source_vector :
    driven (runIncM 0xf006a0000000ab State.reset) = some (0x00F00700000010AB, false) := by decide
/-- Source vector L1-8 (INC.X), with the carry that INC.X discards. -/
theorem test_incX_source_vector :
    driven (runIncX 0xf006a0000000ab State.reset) = some (0x00F006A000000012, true) := by decide
/-- RF-2: refused. -/
theorem test_inverted_range_is_refused :
    refusal? (step (ports false true 5 6 false 15 14)) = some .invertedRange := by decide
/-- RF-3: the nearest legal neighbour, driven as a control word onto the ports. -/
theorem test_fetch_word_runs :
    driven (step ((ports false false 0x9000000000000000 0 false 0 0).withFetchWord 16 0x5FF)) = some (0x0, true) := by
  decide

/-- Driving a control word withdraws the outputs of the transaction before (R22, R29, R107). -/
theorem test_fetch_word_withdraws_outputs :
    ((({ ports true false 0x999 0x1 false 0 3 with
         outputs := some { result := 0x1000, carryOut := false } } : State).withFetchWord 16 0x210).outputs) = none := by
  decide

/-! ### The host around the block -/

/-- The example of R49 assembles to 0x410. -/
theorem test_assemble_example :
    (parseLine "ADD.D 0x19, 0x03, 0, 0:1 -> r, c".toList).map (fun o => (o.controlWord false, o.a, o.b)) =
      some (0x410#11, WordArg.literal 0x19, WordArg.literal 0x03) := by decide
/-- `INC.M w -> w` is ADD.D w, 0x0, 1, 3:12 -> w, _ (R50). -/
theorem test_assemble_pseudo : parseLine "INC.M w -> w".toList = some (expandIncM (.named ['w']) ['w']) := by decide
/-- An inverted range is not assembled (R49). -/
theorem test_assemble_inverted : parseLine "ADD.X a, b, 0, 2:1 -> r, _".toList = none := by decide

/-- A host program before a branch on the borrow `c` (program P2, steps 2 to 4). -/
def branching (c : Bool) : CallerState :=
  { words := [(['a'], 0x1234), (['b'], 0x5678)], bits := [(['c'], c)], nextStep := 1, block := State.reset }

/-- Step `SUB.D a, b, 0, 0:7 -> d, c` of program P2 takes the outputs into `d` and `c`. -/
theorem test_caller_block :
    ((callerStep
        [.block { mnemonic := .subD, a := .named ['a'], b := .named ['b'], carryIn := .literal false, lowIndex := 0,
                  highIndex := 7, result := ['d'], carryOut := some ['c'] }]
        (branching false)).toOption.map
      fun k => (lookupVar k.words ['d'], lookupVar k.bits ['c'], k.nextStep)) =
      some (some 0x99995556, some true, 2) := by decide
theorem test_caller_branch_taken :
    (callerStep [.ifGoto ['c'] 4] (branching true)).toOption.map CallerState.nextStep = some 4 := by decide
theorem test_big_endian_bytes :
    wordBytes .big 0x0123456789ABCDEF = [0x01, 0x23, 0x45, 0x67, 0x89, 0xAB, 0xCD, 0xEF] := by decide

/-! ### Witnesses: for each statement with hypotheses, operands and a state that meet them -/

/-- DecodeOfEncodeIsTheOperation, at the top of every field. -/
theorem witness_wellFormed_instr : (Instr.subD true 15 15).WellFormed := by decide
/-- EncodeOfDecodeIsTheControlWord. -/
theorem witness_decodes : decode 0x7FF#11 = .ok (.subD true 15 15) := by decide
/-- ReservedWordsAreTheInvertedRanges: the boundary on both sides. -/
theorem witness_reserved_word : (0x4EF#11 : ControlWord).extractLsb' 4 4 < (0x4EF#11 : ControlWord).extractLsb' 0 4 := by
  decide
theorem witness_legal_word :
    ((0x4FF#11 : ControlWord).extractLsb' 0 4).toNat ≤ ((0x4FF#11 : ControlWord).extractLsb' 4 4).toNat := by decide
theorem witness_reserved_ports : isReserved (controlWordOf (ports true true 0 0 false 15 14).inputs) = true := by decide

/-- StepRunsTheDecodedOperation. -/
theorem witness_ports_decode :
    decode (controlWordOf (ports true true 0x50 0x60 false 1 1).inputs) = .ok (.subD false 1 1) := by decide
/-- OpcodeBitsSelectTheOperation, one witness for each clause. -/
theorem witness_opcode_addX : (ports false false 1 2 true 0 15).inputs.WellFormed ∧
    controlWordOf (ports false false 1 2 true 0 15).inputs &&& 0x600#11 = 0x000#11 := by decide
theorem witness_opcode_subX : (ports false true 1 2 true 15 15).inputs.WellFormed ∧
    controlWordOf (ports false true 1 2 true 15 15).inputs &&& 0x600#11 = 0x200#11 := by decide
theorem witness_opcode_addD : (ports true false 1 2 true 0 0).inputs.WellFormed ∧
    controlWordOf (ports true false 1 2 true 0 0).inputs &&& 0x600#11 = 0x400#11 := by decide
theorem witness_opcode_subD : (ports true true 1 2 true 3 12).inputs.WellFormed ∧
    controlWordOf (ports true true 1 2 true 3 12).inputs &&& 0x600#11 = 0x600#11 := by decide
/-- DrivenControlWordIsRun. -/
theorem witness_table_word : decodeTableWord 16 0x5C3 = some (.addD true 12 3) := by decide

/-- StepCompletesExactlyOnOrderedRanges, FixedRippleComputesAddSub and the digit and range laws: equal indices at both
ends of the range, and the clauses where the range is inverted by one. -/
theorem witness_ordered_top : (ports true false 0xF 0xF true 15 15 true).inputs.lowIndex.toNat ≤
    (ports true false 0xF 0xF true 15 15 true).inputs.highIndex.toNat := by decide
theorem witness_ordered_bottom : (0#4 : SlotIndex).toNat ≤ (0#4 : SlotIndex).toNat := by decide
theorem witness_inverted_ports : (ports false false 0 0 false 1 0).inputs.highIndex.toNat <
    (ports false false 0 0 false 1 0).inputs.lowIndex.toNat := by decide
theorem witness_inverted_instr : (Instr.addD false 14 15).highIndex.toNat < (Instr.addD false 14 15).lowIndex.toNat := by
  decide

/-- OperationChangesOnlyItsOutputs: an operation that is computed in either mode. -/
theorem witness_exec_next_hex : ∃ t, exec (.subX true 15 0) (ports false true 0 1 true 0 15 true) = .next t :=
  ⟨_, eq_next_of_next? _
    { ports false true 0 1 true 0 15 true with
      outputs := some { result := 0xFFFFFFFFFFFFFFFE, carryOut := true } } (by decide)⟩
theorem witness_exec_next_decimal : ∃ t, exec (.addD false 0 0) (ports true false 0xA 0 false 0 0) = .next t :=
  ⟨_, eq_next_of_next? _
    { ports true false 0xA 0 false 0 0 with outputs := some { result := 0, carryOut := true } } (by decide)⟩
/-- OperationChangesOnlyItsOutputs: an operation whose outputs are a draw. -/
theorem witness_exec_next_drawn : ∃ t, exec (.addD false 0 0) (ports true false 0xA 0 false 0 0 true) = .next t :=
  ⟨_, rfl⟩

/-- AddXDigitByDigit, SubXDigitByDigit, HexAdditionLaw, HexSubtractionLaw: the widest range. -/
theorem witness_hex_range : (0#4 : SlotIndex).toNat ≤ (15#4 : SlotIndex).toNat := by decide
/-- AddDDigitByDigit, SubDDigitByDigit: invalid digits with `strict_bcd` off. -/
theorem witness_computed_default : (1#4 : SlotIndex).toNat ≤ (2#4 : SlotIndex).toNat ∧
    Computed (ports true false 0xFAB0 0xC false 0 0) 1 2 := ⟨by decide, .inl rfl⟩
/-- AddDDigitByDigit, SubDDigitByDigit: valid digits with `strict_bcd` on, invalid ones outside the range. -/
theorem witness_computed_strict : (1#4 : SlotIndex).toNat ≤ (2#4 : SlotIndex).toNat ∧
    Computed (ports true false 0xF99F 0xC11C false 0 0 true) 1 2 := ⟨by decide, .inr (by decide)⟩
/-- StrictInvalidDigitsAreDrawn. -/
theorem witness_drawn : (Instr.subD true 1 0).WellFormed ∧ (Instr.subD true 1 0).decimalMode = true ∧
    ¬Computed (ports true true 0x1A 0 true 0 1 true) 0 1 := by
  refine ⟨by decide, rfl, ?_⟩
  rintro (h | ⟨h, _⟩)
  · exact absurd h (by decide)
  · exact absurd h (by decide)

/-- ActiveMaskMarksTheRange: the widest range and a slot at its top. -/
theorem witness_active_slot : (15 : Nat) < 16 ∧ Active 0 15 15 ∧ ¬Active 0 14 15 := by decide
/-- RangeIsolation: a word `b` that differs outside the range only. -/
theorem witness_range_isolation : (ports true false 0x55 0x1234 false 1 2).inputs.WellFormed ∧
    (∀ i, i < 16 → Active 1 2 i → slot 0xF23F i = slot 0x1234 i) ∧ (0xF23F#64 : Word) ≠ 0x1234 := by decide
/-- DigitCellIsTheTable: the greatest valid digits. -/
theorem witness_valid_cell : (9#4 : Digit).toNat ≤ 9 := by decide
/-- DecimalAdditionLaw, DecimalSubtractionLaw: valid digits in the range, invalid ones outside it. -/
theorem witness_valid_digits : (1#4 : SlotIndex).toNat ≤ (3#4 : SlotIndex).toNat ∧
    validDigits 1 3 (ports true false 0xA999B 0xF001F false 0 0 true).inputs.operandA = true ∧
    validDigits 1 3 (ports true false 0xA999B 0xF001F false 0 0 true).inputs.operandB = true := by decide
/-- SubtractionUndoesAddition: the third clause. -/
theorem witness_inverse_example : (ports true false 0xA 0x0 false 0 0).strictBcd = false ∧
    (ports true false 0xA 0x0 false 0 0).inputs.operandA = 0xA ∧
    (ports true false 0xA 0x0 false 0 0).inputs.operandB = 0x0 := by decide
/-- ChainedRangesEqualTheSingleRange: a range of two slots cut in the middle, at the top of the word. -/
theorem witness_chained : (ports true true 0 0 false 14 15).strictBcd = false ∧
    (ports true true 0 0 false 14 15).inputs.lowIndex.toNat ≤ (14#4 : SlotIndex).toNat ∧
    (14#4 : SlotIndex).toNat < (ports true true 0 0 false 14 15).inputs.highIndex.toNat := by decide
/-- ChainedWordsAddThirtyTwoDigits: the words of program P1. -/
theorem witness_chained_words : validDigits 0 15 0x9999999999999999 = true ∧ validDigits 0 15 0x1 = true ∧
    validDigits 0 15 0x0 = true := by decide
/-- IncMAddsOneToTenDigits: the all-nines field, invalid digits elsewhere. -/
theorem witness_incM : validDigits 3 12 0xFFF9999999999FFF = true := by decide
/-- IncXAddsOneToTwoDigits. -/
theorem witness_incX : validDigits 0 1 0xFFFFFFFFFFFFFF99 = true := by decide

/-- A state after a transaction (AD-10), its outputs on the ports. -/
def computedState : State :=
  { ports true false 0x999 0x1 false 0 3 with outputs := some { result := 0x1000, carryOut := false } }

/-- StepKeepsOutputsBelongToInputs: outputs stand on the ports and a step goes on. -/
theorem witness_invariant : OutputsBelongToInputs computedState ∧ ∃ t, step computedState = .next t := by
  refine ⟨?_, computedState, eq_next_of_next? _ _ (by decide)⟩
  intro o h
  obtain rfl : { result := 0x1000, carryOut := false } = o := Option.some.inj h
  exact ⟨by decide, by decide, fun _ => by decide, fun _ _ _ => by decide⟩
/-- OutputsAreAFunctionOfInputs: two states with equal inputs that differ elsewhere, and a step that goes on. -/
theorem witness_same_inputs : computedState.strictBcd = false ∧
    (computedState.drive computedState.inputs).strictBcd = false ∧
    computedState.inputs = (computedState.drive computedState.inputs).inputs ∧ computedState.inputs.WellFormed ∧
    computedState ≠ computedState.drive computedState.inputs := by decide
theorem witness_repeated_step : computedState.strictBcd = false ∧ ∃ t, step computedState = .next t :=
  ⟨rfl, computedState, eq_next_of_next? _ _ (by decide)⟩
/-- ResetHasNoEffectOnOutputs. -/
theorem witness_after_reset : computedState.strictBcd = false ∧ (incMInputs 0x9009).WellFormed := by decide
/-- TransactionsAreIndependent. -/
theorem witness_run : computedState.strictBcd = false ∧
    ∀ p ∈ [incMInputs 0x9009, incXInputs 0xAB, computedState.inputs], p.WellFormed := by decide
/-- InvertedRangeRefusesTheWholeRun: the inverted range stands last. -/
theorem witness_refused_run :
    ∃ p ∈ [incMInputs 0x9009, (ports false false 0 0 false 1 0).inputs], p.highIndex.toNat < p.lowIndex.toNat := by decide
/-- CallerBlockWritesOnlyItsVariables: variables for both operands and for the borrow in, and a single slot. -/
theorem witness_caller_block : (7#4 : SlotIndex).toNat ≤ (7#4 : SlotIndex).toNat ∧
    (evalWord (branching true) (.named ['a'])).toOption = some 0x1234 ∧
    (evalWord (branching true) (.literal 3)).toOption = some 3 ∧
    (evalBit (branching true) (.named ['c'])).toOption = some true := by decide

end Sys2Proof.Tests
end

/-! PROOFS. The family of 10_state.md: the step decodes the ports, an operation changes only its outputs, `raw` fits six
bits, and the outputs on the ports belong to the inputs on the ports. -/

namespace Sys2Proof.Proofs

open Sys2Proof Sys2Proof.Machine Sys2Proof.Laws

section Step

/-! ### What an operation and a step can do -/

/-- A draw happens exactly in decimal mode, with `strict_bcd` on and an invalid digit in an active slot (D4). -/
theorem drawsOutputs_eq_true_iff (strict : Bool) (p : Inputs) :
    drawsOutputs strict p = true ↔
      p.decimalMode = true ∧
        ¬(strict = false ∨
          (validDigits p.lowIndex p.highIndex p.operandA = true ∧
            validDigits p.lowIndex p.highIndex p.operandB = true)) := by
  simp only [drawsOutputs, Bool.and_eq_true, Bool.not_eq_true', Bool.and_eq_false_iff, not_or, not_and_or,
    Bool.not_eq_true, Bool.not_eq_false]
  tauto

/-- A transaction that completes has a well-formed range, and its outputs are computed or drawn. -/
theorem transact_next {p : Inputs} {s t : State} (h : transact p s = .next t) :
    p.WellFormed ∧
      ((drawsOutputs s.strictBcd p = false ∧ t = { s with outputs := some (computedOutputs p) }) ∨
        (drawsOutputs s.strictBcd p = true ∧
          t = { s with outputs := some (drawnOutputs p s.draws), draws := s.draws + 1 })) := by
  rcases transact_cases p s with ⟨-, ht⟩ | ⟨hwf, hd, ht⟩ | ⟨hwf, hd, ht⟩ <;> rw [ht] at h
  · cases h
  · exact ⟨hwf, .inl ⟨hd, (Host.Outcome.next.inj h).symm⟩⟩
  · exact ⟨hwf, .inr ⟨hd, (Host.Outcome.next.inj h).symm⟩⟩

/-- The operation that a mode pair selects has that mode pair and the given operand fields (R46). -/
theorem selectOperation_fields (dec sub c : Bool) (hi lo : SlotIndex) :
    (selectOperation dec sub c hi lo).decimalMode = dec ∧ (selectOperation dec sub c hi lo).subtract = sub ∧
      (selectOperation dec sub c hi lo).carryIn = c ∧ (selectOperation dec sub c hi lo).highIndex = hi ∧
      (selectOperation dec sub c hi lo).lowIndex = lo := by
  cases dec <;> cases sub <;> exact ⟨rfl, rfl, rfl, rfl, rfl⟩

/-- The control word on the ports decodes to the operation that the control ports name, or is reserved (R44 to R47). -/
theorem decode_controlWordOf (p : Inputs) :
    decode (controlWordOf p) =
      if p.highIndex.toNat < p.lowIndex.toNat then .error .invertedRange
      else .ok (selectOperation p.decimalMode p.subtract p.carryIn p.highIndex p.lowIndex) := by
  obtain ⟨hdec, hsub, hcin, hhi, hlo⟩ := fields_of_ports p
  rw [decode, hdec, hsub, hcin, hhi, hlo]

/-- One step is one transaction on the values that stand on the ports (D1). -/
theorem step_eq_transact (s : State) : step s = transact s.inputs s := by
  rw [step, decode_controlWordOf]
  by_cases h : s.inputs.highIndex.toNat < s.inputs.lowIndex.toNat
  · rw [if_pos h, transact, addSub_inverted _ h]; rfl
  · obtain ⟨hdec, hsub, hcin, hhi, hlo⟩ := selectOperation_fields s.inputs.decimalMode s.inputs.subtract
      s.inputs.carryIn s.inputs.highIndex s.inputs.lowIndex
    rw [if_neg h]
    change exec _ s = _
    rw [exec_eq_transact, hdec, hsub, hcin, hhi, hlo, withControl_self]

end Step

section DigitCell

/-! ### The digit cell (40_datapath.md R57 to R61) and the bounds of `raw` (10_state.md R28) -/

theorem complementDigit_toNat (sub : Bool) (d : Digit) :
    (complementDigit sub d).toNat = if sub then 15 - d.toNat else d.toNat := by
  cases sub with
  | false => rfl
  | true => revert d; decide

theorem binaryAdd_raw (da db : Digit) (c : Bool) : (binaryAdd da db c).1 = da.toNat + db.toNat + c.toNat := rfl

theorem binaryAdd_carry_eq_false_iff (da db : Digit) (c : Bool) :
    (binaryAdd da db c).2 = false ↔ (binaryAdd da db c).1 ≤ 15 := by
  simp [binaryAdd]

theorem decimalAdjust_hex (sub : Bool) (raw : Nat) (c : Bool) : decimalAdjust false sub raw c = (raw, c) := rfl

theorem decimalAdjust_add_raw (raw : Nat) (c : Bool) :
    (decimalAdjust true false raw c).1 = if 9 < raw then raw + 6 else raw := by
  simp [decimalAdjust, apply_ite Prod.fst]

theorem decimalAdjust_sub_raw (raw : Nat) (c : Bool) :
    (decimalAdjust true true raw c).1 = if c then raw else raw + 10 := by
  simp [decimalAdjust, apply_ite Prod.fst]

theorem digitCell_digit_toNat (dec sub : Bool) (da db : Digit) (c : Bool) :
    (digitCell dec sub da db c).1.toNat =
      (decimalAdjust dec sub (binaryAdd da (complementDigit sub db) c).1
        (binaryAdd da (complementDigit sub db) c).2).1 % 16 := by
  simp [digitCell]

theorem binaryAdd_raw_le (da db : Digit) (c : Bool) : (binaryAdd da db c).1 ≤ 31 := by
  have hda := da.isLt
  have hdb := db.isLt
  have hc := Bool.toNat_le c
  rw [binaryAdd_raw]
  omega

/-- Where 10 is added no carry resulted, so that the sum stays below the bound of the addition of 6. -/
theorem decimalAdjust_raw_le (dec sub : Bool) {raw : Nat} {c : Bool} (hraw : raw ≤ 31) (hc : c = false → raw ≤ 15) :
    (decimalAdjust dec sub raw c).1 ≤ 37 := by
  cases dec with
  | false => rw [decimalAdjust_hex]; exact hraw.trans (by decide)
  | true =>
    cases sub with
    | false => rw [decimalAdjust_add_raw]; split <;> omega
    | true =>
      rw [decimalAdjust_sub_raw]
      split
      · omega
      · next hnot => have := hc (Bool.eq_false_of_not_eq_true hnot); omega

/-- The decimal cell gives a decimal digit for decimal digits (R67): an addition has `raw` at most 19, and a subtraction
has it from 6 to 25. -/
theorem digitCell_decimal_le_nine (sub : Bool) {da db : Digit} (c : Bool) (ha : da.toNat ≤ 9) (hb : db.toNat ≤ 9) :
    (digitCell true sub da db c).1.toNat ≤ 9 := by
  have hc := Bool.toNat_le c
  have hraw := binaryAdd_raw da (complementDigit sub db) c
  have hcarry := binaryAdd_carry_eq_false_iff da (complementDigit sub db) c
  rw [complementDigit_toNat] at hraw
  rw [digitCell_digit_toNat]
  cases sub with
  | false =>
    rw [if_neg Bool.false_ne_true] at hraw
    rw [decimalAdjust_add_raw]
    split <;> omega
  | true =>
    rw [if_pos rfl] at hraw
    rw [decimalAdjust_sub_raw]
    split
    · next h =>
      rw [h] at hcarry
      have : ¬(binaryAdd da (complementDigit true db) c).1 ≤ 15 := fun hle => Bool.noConfusion (hcarry.2 hle)
      omega
    · next h =>
      have := hcarry.1 (Bool.eq_false_of_not_eq_true h)
      omega

end DigitCell

section FixedChain

/-! ### The fixed chain of sixteen cells (40_datapath.md R68) -/

/-- The word and the running carry after the first `n` cells of the fixed chain. -/
def fixedChain (p : Inputs) (n : Nat) : Word × Bool :=
  (List.range n).foldl
    (fun (acc : Word × Bool) i => (setSlot acc.1 i (chainCell p i acc.2).1, (chainCell p i acc.2).2))
    (0#64, seedCarry p.carryIn p.subtract)

variable (p : Inputs)

theorem fixedRipple_eq_fixedChain :
    fixedRipple p =
      { result := (fixedChain p 16).1, carryOut := externalCarry (fixedChain p 16).2 p.subtract } := rfl

theorem fixedChain_succ (n : Nat) :
    fixedChain p (n + 1) =
      (setSlot (fixedChain p n).1 n (chainCell p n (fixedChain p n).2).1, (chainCell p n (fixedChain p n).2).2) := by
  simp [fixedChain, List.range_succ]

theorem chainCell_active {p : Inputs} {i : Nat} (h : Active p.lowIndex p.highIndex i) (c : Bool) :
    chainCell p i c = digitCell p.decimalMode p.subtract (slot p.operandA i) (slot p.operandB i) c := if_pos h

theorem chainCell_inactive {p : Inputs} {i : Nat} (h : ¬Active p.lowIndex p.highIndex i) (c : Bool) :
    chainCell p i c = (slot p.operandA i, c) := if_neg h

/-- Slot `j` is written by cell `j`, on the carry of the cells below it, and by no later cell. -/
theorem fixedChain_slot {n j : Nat} (hj : j < n) (hn : n ≤ 16) :
    slot (fixedChain p n).1 j = (chainCell p j (fixedChain p j).2).1 := by
  induction n with
  | zero => omega
  | succ n ih =>
    rw [fixedChain_succ]
    by_cases h : j = n
    · subst h; exact slot_setSlot_same _ _ _ (by omega)
    · rw [slot_setSlot_ne _ _ _ _ (Ne.symm h), ih (by omega) (by omega)]

/-- The cells below the range pass the seed on, and those above it pass the carry of the range on, so that the carry
before cell `n` is the one after those cells of the range that stand below `n`. -/
theorem fixedChain_carry (hwf : p.WellFormed) (n : Nat) :
    (fixedChain p n).2 =
      carryInto p.decimalMode p.subtract p.operandA p.operandB p.lowIndex.toNat (seedCarry p.carryIn p.subtract)
        (min (n - p.lowIndex.toNat) (rangeWidth p.lowIndex p.highIndex)) := by
  induction n with
  | zero => simp [fixedChain, carryInto]
  | succ n ih =>
    rw [fixedChain_succ]
    by_cases h : Active p.lowIndex p.highIndex n
    · have hlast : min (n + 1 - p.lowIndex.toNat) (rangeWidth p.lowIndex p.highIndex) = n - p.lowIndex.toNat + 1 := by
        unfold rangeWidth; omega
      have hbefore : min (n - p.lowIndex.toNat) (rangeWidth p.lowIndex p.highIndex) = n - p.lowIndex.toNat := by
        unfold rangeWidth; omega
      rw [chainCell_active h, ih, hlast, hbefore, carryInto, Nat.add_sub_cancel' h.1]
    · have hsame : min (n + 1 - p.lowIndex.toNat) (rangeWidth p.lowIndex p.highIndex) =
          min (n - p.lowIndex.toNat) (rangeWidth p.lowIndex p.highIndex) := by
        unfold rangeWidth; omega
      rw [chainCell_inactive h, ih, hsame]

end FixedChain

section ComputedOutputs

/-! ### The slots of the outputs -/

/-- The slots of the result outside the range are those of `operand_a` (R55). -/
theorem computedOutputs_inactive (p : Inputs) (hwf : p.WellFormed) :
    InactiveSlotsAgree p.lowIndex p.highIndex (computedOutputs p).result p.operandA := by
  intro j _ hj
  exact ripple_slot_outside _ _ _ _ _ _ _ _ _ (by unfold rangeWidth; omega)

/-- An active slot of the result holds the digit of its cell, on the carry of the fixed chain before it. -/
theorem computedOutputs_active (p : Inputs) (hwf : p.WellFormed) {j : Nat} (hj : Active p.lowIndex p.highIndex j) :
    slot (computedOutputs p).result j =
      (digitCell p.decimalMode p.subtract (slot p.operandA j) (slot p.operandB j) (fixedChain p j).2).1 := by
  have hhi := p.highIndex.isLt
  have hcell := ripple_slot_inside p.decimalMode p.subtract p.operandA p.operandB (rangeWidth p.lowIndex p.highIndex)
    p.lowIndex.toNat p.operandA (seedCarry p.carryIn p.subtract) (j - p.lowIndex.toNat)
    (by unfold rangeWidth; omega) (by unfold rangeWidth; omega)
  have hcarry : min (j - p.lowIndex.toNat) (rangeWidth p.lowIndex p.highIndex) = j - p.lowIndex.toNat := by
    unfold rangeWidth; omega
  rw [Nat.add_sub_cancel' hj.1] at hcell
  rw [fixedChain_carry p hwf, hcarry]
  exact hcell

/-- The carry after the range is the carry after all sixteen cells. -/
theorem computedOutputs_carryOut (p : Inputs) (hwf : p.WellFormed) :
    (computedOutputs p).carryOut = externalCarry (fixedChain p 16).2 p.subtract := by
  have hhi := p.highIndex.isLt
  have hall : min (16 - p.lowIndex.toNat) (rangeWidth p.lowIndex p.highIndex) = rangeWidth p.lowIndex p.highIndex := by
    unfold rangeWidth; omega
  rw [fixedChain_carry p hwf, hall, ← ripple_carry]
  rfl

/-- `AddSub` on a well-formed range is the fixed chain of sixteen cells (R68). -/
theorem computedOutputs_eq_fixedRipple (p : Inputs) (hwf : p.WellFormed) : computedOutputs p = fixedRipple p := by
  have hresult : (computedOutputs p).result = (fixedChain p 16).1 := by
    apply word_eq_of_slots
    intro j hj
    rw [fixedChain_slot p hj le_rfl]
    by_cases h : Active p.lowIndex p.highIndex j
    · rw [computedOutputs_active p hwf h, chainCell_active h]
    · rw [computedOutputs_inactive p hwf j hj h, chainCell_inactive h]
  rw [fixedRipple_eq_fixedChain, ← hresult, ← computedOutputs_carryOut p hwf]

/-- Decimal operands give decimal digits in every active slot (R72, R73). -/
theorem computedOutputs_validDigits (p : Inputs) (hwf : p.WellFormed) (hdec : p.decimalMode = true)
    (ha : validDigits p.lowIndex p.highIndex p.operandA = true)
    (hb : validDigits p.lowIndex p.highIndex p.operandB = true) :
    validDigits p.lowIndex p.highIndex (computedOutputs p).result = true := by
  rw [validDigits_iff] at ha hb ⊢
  intro j hj
  rw [computedOutputs_active p hwf hj, hdec]
  exact digitCell_decimal_le_nine p.subtract _ (ha j hj) (hb j hj)

/-- A draw leaves the slots outside the range to `operand_a` (R55, D4). -/
theorem drawnOutputs_inactive (p : Inputs) (n : Nat) :
    InactiveSlotsAgree p.lowIndex p.highIndex (drawnOutputs p n).result p.operandA := by
  intro j hj hout
  rw [drawnOutputs, slot_merge _ _ _ _ _ hj, if_neg hout]

end ComputedOutputs

section Settled

/-! ### The obligations -/

/-- Settles O33: a step that completes gives computed outputs, which are those of the fixed chain and decimal for
decimal operands, or a draw, which happens for no decimal operands. -/
theorem stepKeepsOutputsBelongToInputs : Obligations.StepKeepsOutputsBelongToInputs := by
  intro s t _ hstep o ho
  rw [step_eq_transact] at hstep
  obtain ⟨hwf, ⟨_, rfl⟩ | ⟨hdraw, rfl⟩⟩ := transact_next hstep
  · obtain rfl := Option.some.inj ho
    exact ⟨hwf, computedOutputs_inactive _ hwf, fun _ => computedOutputs_eq_fixedRipple _ hwf,
      computedOutputs_validDigits _ hwf⟩
  · obtain rfl := Option.some.inj ho
    refine ⟨hwf, drawnOutputs_inactive _ _, fun hnot => ?_, fun _ ha hb => ?_⟩
    · exact absurd (hdraw.symm.trans hnot) (by decide)
    · exact absurd (hdraw.symm.trans (drawsOutputs_valid _ _ ha hb)) (by decide)

/-- Settles O11: an operation is one transaction, which writes the outputs and, for a draw only, the counter. -/
theorem operationChangesOnlyItsOutputs : Obligations.OperationChangesOnlyItsOutputs := by
  intro i s t hexec
  rw [exec_eq_transact] at hexec
  have hdraws := drawsOutputs_eq_true_iff s.strictBcd
    (s.inputs.withControl i.decimalMode i.subtract i.carryIn i.highIndex i.lowIndex)
  obtain ⟨-, ⟨hdraw, rfl⟩ | ⟨hdraw, rfl⟩⟩ := transact_next hexec
  · refine ⟨rfl, rfl, ?_⟩
    by_cases hcomp : Computed s i.lowIndex i.highIndex
    · exact .inl ⟨rfl, hcomp⟩
    · have hhex : i.decimalMode ≠ true := fun hdec => by
        simpa [hdraw] using hdraws.2 ⟨hdec, hcomp⟩
      exact .inr (.inl ⟨rfl, Bool.eq_false_of_not_eq_true hhex⟩)
  · obtain ⟨hdec, hnot⟩ := hdraws.1 hdraw
    exact ⟨rfl, rfl, .inr (.inr ⟨rfl, hdec, hnot⟩)⟩

/-- Settles O7. -/
theorem stepRunsTheDecodedOperation : Obligations.StepRunsTheDecodedOperation := by
  intro s i hdecode
  rw [step, hdecode]

/-- Settles O20: the digits F and F with a carry reach the bound. -/
theorem rawFitsSixBits : Obligations.RawFitsSixBits :=
  ⟨binaryAdd_raw_le,
    fun dec sub da db c => decimalAdjust_raw_le dec sub (binaryAdd_raw_le da db c)
      (binaryAdd_carry_eq_false_iff da db c).1,
    0xF#4, 0xF#4, rfl⟩

end Settled

end Sys2Proof.Proofs

/-! PROOFS. The family of 20_memory.md: the transactions of a run are independent, and a host's memory keeps words apart
in either byte order. -/

namespace Sys2Proof.Proofs

open Sys2Proof Sys2Proof.Machine Sys2Proof.Laws

section Runs

/-! ### Runs of transactions -/

/-- One transaction is computed on the input set that the host drives for it. -/
theorem transaction_eq_transact (s : State) (p : Inputs) : transaction s p = transact p (s.drive p) :=
  step_eq_transact (s.drive p)

/-- With `strict_bcd` off, a well-formed input set is answered by the outputs of its own fixed chain (R34, R68). -/
theorem transaction_default {s : State} {p : Inputs} (hs : s.strictBcd = false) (hwf : p.WellFormed) :
    transaction s p = .next { s.drive p with outputs := some (fixedRipple p) } := by
  have hnodraw : drawsOutputs (s.drive p).strictBcd p = false := by
    rw [drive_strictBcd, hs, drawsOutputs_default]
  rw [transaction_eq_transact]
  rcases transact_cases p (s.drive p) with ⟨hinverted, -⟩ | ⟨-, -, hnext⟩ | ⟨-, hdraw, -⟩
  · exact absurd hwf (Nat.not_le.2 hinverted)
  · rw [hnext, computedOutputs_eq_fixedRipple p hwf]
  · exact absurd (hnodraw.symm.trans hdraw) (by decide)

/-- A run whose first transaction completes goes on with the others, its outputs before theirs. -/
theorem runTransactions_cons_next {p : Inputs} {ps : List Inputs} {s t u : State} {outs : List Outputs}
    (hfirst : transaction s p = .next t) (hrest : runTransactions ps t = .next (u, outs)) :
    runTransactions (p :: ps) s = .next (u, t.outputs.toList ++ outs) := by
  simp only [runTransactions, hfirst, hrest]

end Runs

section HostMemory

/-! ### The bytes of a word -/

/-- The two byte orders are each other's reversal (R31, D10). -/
theorem wordBytes_big (w : Word) : wordBytes .big w = (wordBytes .little w).reverse := rfl

theorem wordBytes_little_getElem? (w : Word) {i : Nat} (hi : i < 8) :
    (wordBytes .little w)[i]? = some (w.extractLsb' (8 * i) 8) := by
  simp [wordBytes, hi]

@[simp] theorem wordBytes_length (order : ByteOrder) (w : Word) : (wordBytes order w).length = 8 := by
  cases order <;> simp [wordBytes]

/-- The lowest address holds the lowest byte of a word or, in the other byte order, its highest (R31, D10). -/
theorem wordBytes_getElem?_zero (order : ByteOrder) (w : Word) :
    (wordBytes order w)[0]? = some (w.extractLsb' 0 8) ∨ (wordBytes order w)[0]? = some (w.extractLsb' 56 8) := by
  cases order with
  | little => exact .inl (wordBytes_little_getElem? w (by decide))
  | big =>
    rw [wordBytes_big, List.getElem?_reverse (by simp), wordBytes_length]
    exact .inr (wordBytes_little_getElem? w (by decide))

/-- Bit `k` of a word is bit `k % 8` of its byte `k / 8`, so equal bytes mean equal words. -/
theorem word_eq_of_bytes {w v : Word} (h : ∀ i, i < 8 → w.extractLsb' (8 * i) 8 = v.extractLsb' (8 * i) 8) : w = v := by
  apply BitVec.eq_of_getLsbD_eq
  intro k hk
  have hbit := congrArg (·.getLsbD (k % 8)) (h (k / 8) (by omega))
  have hmod : k % 8 < 8 := Nat.mod_lt k (by decide)
  simpa [hmod, Nat.div_add_mod] using hbit

/-- Neither byte order loses anything of a word. -/
theorem wordBytes_injective (order : ByteOrder) : Function.Injective (wordBytes order) := by
  have hlittle : Function.Injective (wordBytes .little) := fun w v h =>
    word_eq_of_bytes fun i hi => by
      have hbyte := congrArg (·[i]?) h
      simpa only [wordBytes_little_getElem? _ hi, Option.some.injEq] using hbyte
  cases order with
  | little => exact hlittle
  | big => exact List.reverse_injective.comp hlittle

end HostMemory

section Settled

/-! ### The obligations -/

/-- Settles O37, by induction on the run: each transaction leaves `strict_bcd` off and answers by its own fixed chain. -/
theorem transactionsAreIndependent : Obligations.TransactionsAreIndependent := by
  intro ps
  induction ps with
  | nil => exact fun s hs _ => ⟨s, rfl, hs⟩
  | cons p ps ih =>
    intro s hs hwf
    obtain ⟨hp, hps⟩ := List.forall_mem_cons.1 hwf
    obtain ⟨u, hrest, hu⟩ := ih { s.drive p with outputs := some (fixedRipple p) } hs hps
    exact ⟨u, runTransactions_cons_next (transaction_default hs hp) hrest, hu⟩

/-- Settles O39: both byte orders have the three properties, so the order of this host does, whichever it is. -/
theorem hostBytesDetermineTheWord : Obligations.HostBytesDetermineTheWord :=
  ⟨fun _ _ h => wordBytes_injective _ h, fun w => ⟨wordBytes_length _ w, wordBytes_getElem?_zero _ w⟩⟩

end Settled

end Sys2Proof.Proofs

/-! PROOFS. The family of 30_encoding.md: the control word and the operations stand for each other, the reserved words
are those of the inverted ranges, the assembled form is the encoding, and a block operation of a host program writes its
own variables only. -/

namespace Sys2Proof.Proofs

open Sys2Proof Sys2Proof.Machine Sys2Proof.Laws

section ControlWords

/-! ### Operations, control words and control ports (R44 to R46) -/

/-- An operation is the one that its own fields select. -/
@[simp] theorem selectOperation_self (i : Instr) :
    selectOperation i.decimalMode i.subtract i.carryIn i.highIndex i.lowIndex = i := by
  cases i <;> rfl

/-- The two mode bits read back from the opcode (R46). -/
theorem modeBits_getLsbD (dec sub : Bool) :
    (BitVec.ofBool dec ++ BitVec.ofBool sub : BitVec 2).getLsbD 0 = sub ∧
      (BitVec.ofBool dec ++ BitVec.ofBool sub : BitVec 2).getLsbD 1 = dec := by
  cases dec <;> cases sub <;> exact ⟨rfl, rfl⟩

theorem opcode_eq_modeBits (i : Instr) :
    opcode i = (BitVec.ofBool i.decimalMode ++ BitVec.ofBool i.subtract : BitVec 2) := by
  cases i <;> simp only [opcode, Instr.decimalMode, Instr.subtract] <;> decide

/-- The encoder and the ports share one layout (R44): an operation is encoded as the control ports that are driven to its
fields present it. -/
theorem encode_eq_controlWordOf (p : Inputs) (i : Instr) :
    encode i = controlWordOf (p.withControl i.decimalMode i.subtract i.carryIn i.highIndex i.lowIndex) := by
  rw [encode, opcode_eq_modeBits, ← mode_layout]
  rfl

/-- The five fields make up the whole control word: ports that are driven to its fields present it (R44, R45). -/
theorem controlWordOf_withControl_fields (p : Inputs) (cw : ControlWord) :
    controlWordOf (p.withControl (cwDecimalMode cw) (cwSubtract cw) (cwCarryIn cw) (cwHighIndex cw) (cwLowIndex cw)) =
      cw := by
  apply BitVec.eq_of_getLsbD_eq
  intro k hk
  rw [controlWordOf, mode_layout, opcode_layout_getLsbD]
  simp only [withControl_decimalMode, withControl_subtract, withControl_carryIn, withControl_highIndex,
    withControl_lowIndex, cwHighIndex, cwLowIndex, BitVec.getLsbD_extractLsb']
  by_cases hlo : k < 4
  · simp [hlo]
  by_cases hhi : k < 8
  · simp [hlo, hhi, show k - 4 < 4 by omega, show 4 + (k - 4) = k by omega]
  have : k = 8 ∨ k = 9 ∨ k = 10 := by omega
  rcases this with rfl | rfl | rfl
  · rfl
  · exact (modeBits_getLsbD _ _).1
  · exact (modeBits_getLsbD _ _).2

/-- Driving a control word makes the ports present it. -/
@[simp] theorem controlWordOf_withControlWord (s : State) (cw : ControlWord) :
    controlWordOf (withControlWord s cw).inputs = cw :=
  controlWordOf_withControl_fields s.inputs cw

/-- The operation that the fields of a control word select is encoded as that control word. -/
theorem encode_selectOperation_fields (cw : ControlWord) :
    encode (selectOperation (cwDecimalMode cw) (cwSubtract cw) (cwCarryIn cw) (cwHighIndex cw) (cwLowIndex cw)) = cw := by
  obtain ⟨hdec, hsub, hcin, hhi, hlo⟩ := selectOperation_fields (cwDecimalMode cw) (cwSubtract cw) (cwCarryIn cw)
    (cwHighIndex cw) (cwLowIndex cw)
  rw [encode_eq_controlWordOf Inputs.idle, hdec, hsub, hcin, hhi, hlo, controlWordOf_withControl_fields]

/-- The ports present the control word of the operation that they select. -/
theorem controlWordOf_eq_encode (p : Inputs) :
    controlWordOf p = encode (selectOperation p.decimalMode p.subtract p.carryIn p.highIndex p.lowIndex) := by
  obtain ⟨hdec, hsub, hcin, hhi, hlo⟩ := fields_of_ports p
  rw [← hdec, ← hsub, ← hcin, ← hhi, ← hlo, encode_selectOperation_fields]

end ControlWords

section Decoder

/-! ### What the decoder answers (R46, R47) -/

theorem decode_of_ordered {cw : ControlWord} (h : (cwLowIndex cw).toNat ≤ (cwHighIndex cw).toNat) :
    decode cw = .ok
      (selectOperation (cwDecimalMode cw) (cwSubtract cw) (cwCarryIn cw) (cwHighIndex cw) (cwLowIndex cw)) :=
  if_neg (Nat.not_lt.2 h)

theorem decode_of_inverted {cw : ControlWord} (h : (cwHighIndex cw).toNat < (cwLowIndex cw).toNat) :
    decode cw = .error .invertedRange :=
  if_pos h

theorem decode_eq_error_iff (cw : ControlWord) :
    decode cw = .error .invertedRange ↔ (cwHighIndex cw).toNat < (cwLowIndex cw).toNat := by
  refine ⟨fun h => ?_, decode_of_inverted⟩
  by_contra hle
  rw [decode_of_ordered (Nat.not_lt.1 hle)] at h
  cases h

/-- A control word decodes to an operation exactly where its range is ordered and its fields select that operation. -/
theorem decode_eq_ok_iff (cw : ControlWord) (i : Instr) :
    decode cw = .ok i ↔
      (cwLowIndex cw).toNat ≤ (cwHighIndex cw).toNat ∧
        selectOperation (cwDecimalMode cw) (cwSubtract cw) (cwCarryIn cw) (cwHighIndex cw) (cwLowIndex cw) = i := by
  by_cases h : (cwHighIndex cw).toNat < (cwLowIndex cw).toNat
  · simp [decode_of_inverted h, Nat.not_le.2 h]
  · simp [decode_of_ordered (Nat.not_lt.1 h), Nat.not_lt.1 h]

theorem isReserved_eq_true_iff (cw : ControlWord) : isReserved cw = true ↔ decode cw = .error .invertedRange := by
  rw [isReserved]
  cases decode cw with
  | ok i => simp
  | error e => cases e; simp

/-- On a well-formed input set one step is the operation that the control ports select (R46). -/
theorem step_eq_exec_selectOperation {s : State} (hwf : s.inputs.WellFormed) :
    step s = exec (selectOperation s.inputs.decimalMode s.inputs.subtract s.inputs.carryIn s.inputs.highIndex
      s.inputs.lowIndex) s :=
  stepRunsTheDecodedOperation s _ (by rw [decode_controlWordOf, if_neg (Nat.not_lt.2 hwf)])

/-- The mask 0x600 takes the match value of its row from the control word of every operation (R46). -/
theorem encode_and_mask (i : Instr) : encode i &&& 0x600#11 = TableMatch.rowMatch i := by
  cases i with
  | addX c hi lo => exact TableMatch.addX c hi lo
  | subX c hi lo => exact TableMatch.subX c hi lo
  | addD c hi lo => exact TableMatch.addD c hi lo
  | subD c hi lo => exact TableMatch.subD c hi lo

/-- A number that holds an operation has no bit above bit 10, and its control word decodes to the operation. -/
theorem decode_of_decodeTableWord {nbits w : Nat} {i : Instr} (h : decodeTableWord nbits w = some i) :
    decode (controlWordOfNumber nbits w) = .ok i := by
  rw [controlWordOfNumber]
  simp only [decodeTableWord] at h
  split at h
  · cases hdecode : decode (BitVec.ofNat 11 (w % 2 ^ nbits)) with
    | ok j =>
      rw [hdecode] at h
      exact congrArg Except.ok (Option.some.inj h)
    | error e =>
      rw [hdecode] at h
      cases h
  · cases h

end Decoder

section ReservedWords

/-! ### The number of reserved control words (R47) -/

/-- Whether the control word of a number is reserved depends on its two lowest hexadecimal digits. -/
theorem isReserved_ofNat (n : Nat) : isReserved (BitVec.ofNat 11 n) = decide (n / 16 % 16 < n % 16) := by
  have hhi : (cwHighIndex (BitVec.ofNat 11 n)).toNat = n / 16 % 16 := by
    simp only [cwHighIndex, BitVec.extractLsb'_toNat, BitVec.toNat_ofNat, Nat.shiftRight_eq_div_pow]
    omega
  have hlo : (cwLowIndex (BitVec.ofNat 11 n)).toNat = n % 16 := by
    simp only [cwLowIndex, BitVec.extractLsb'_toNat, BitVec.toNat_ofNat, Nat.shiftRight_eq_div_pow]
    omega
  rw [Bool.eq_iff_iff, isReserved_eq_true_iff, decode_eq_error_iff, hhi, hlo, decide_eq_true_iff]

/-- The low indices that lie above the high index `h`. -/
theorem countP_range_lt (h m : Nat) : (List.range m).countP (fun l => decide (h < l)) = m - (h + 1) := by
  induction m with
  | zero => simp
  | succ m ih =>
    rw [List.range_succ, List.countP_append, ih, List.countP_singleton]
    by_cases hm : h < m
    · simp only [hm, decide_true, if_true]; omega
    · simp only [hm, decide_false, Bool.false_eq_true, if_false]; omega

/-- The reserved numbers in the row of sixteen that agree above their lowest digit: `h % 16` is their high index. -/
theorem countP_isReserved_row (h : Nat) :
    (List.range 16).countP ((fun n => isReserved (BitVec.ofNat 11 n)) ∘ (h * 16 + ·)) = 15 - h % 16 := by
  rw [show 15 - h % 16 = 16 - (h % 16 + 1) by omega, ← countP_range_lt]
  refine List.countP_congr fun l hl => ?_
  have hlt := List.mem_range.1 hl
  rw [Function.comp_apply, isReserved_ofNat, show (h * 16 + l) / 16 % 16 = h % 16 by omega,
    show (h * 16 + l) % 16 = l by omega]

theorem countP_isReserved_rows (h : Nat) :
    (List.range (h * 16)).countP (fun n => isReserved (BitVec.ofNat 11 n)) = ∑ i ∈ Finset.range h, (15 - i % 16) := by
  induction h with
  | zero => simp
  | succ h ih =>
    rw [Nat.succ_mul, List.range_add, List.countP_append, List.countP_map, countP_isReserved_row, ih,
      Finset.sum_range_succ]

/-- The sixteen rows of one setting of the bits above the indices hold 15, 14, ..., 0 reserved numbers, 120 together. -/
theorem sum_reserved_of_rows (k : Nat) : ∑ h ∈ Finset.range (k * 16), (15 - h % 16) = k * 120 := by
  induction k with
  | zero => rfl
  | succ k ih =>
    rw [Nat.succ_mul, Finset.sum_range_add, ih, Nat.succ_mul]
    simp only [Nat.mul_add_mod_self_right]
    rfl

/-- 960 words are reserved: 120 for each of the eight settings of the bits above the indices. -/
theorem countP_isReserved : (List.range 2048).countP (fun n => isReserved (BitVec.ofNat 11 n)) = 960 :=
  (countP_isReserved_rows (8 * 16)).trans (sum_reserved_of_rows 8)

theorem countP_not_isReserved : (List.range 2048).countP (fun n => !isReserved (BitVec.ofNat 11 n)) = 1088 := by
  have hall := List.length_eq_countP_add_countP (fun n => isReserved (BitVec.ofNat 11 n)) (l := List.range 2048)
  rw [List.length_range, countP_isReserved] at hall
  simp only [Bool.not_eq_true, Bool.decide_eq_false] at hall
  omega

end ReservedWords

section Assembler

/-! ### The assembled form (R49) -/

/-- Shifting the fields into place and joining them is setting them side by side. -/
theorem ofNat_shiftLeft_or (op : BitVec 2) (c : Bool) (hi lo : SlotIndex) :
    BitVec.ofNat 11 (op.toNat <<< 9 ||| c.toNat <<< 8 ||| hi.toNat <<< 4 ||| lo.toNat) =
      (op ++ BitVec.ofBool c ++ hi ++ lo : ControlWord) := by
  have happend : (op ++ BitVec.ofBool c ++ hi ++ lo : ControlWord).toNat =
      op.toNat <<< 9 ||| c.toNat <<< 8 ||| hi.toNat <<< 4 ||| lo.toNat := by
    simp only [BitVec.toNat_append, BitVec.toNat_ofBool, Nat.shiftLeft_or_distrib, ← Nat.shiftLeft_add]
  rw [← happend, BitVec.ofNat_toNat, BitVec.setWidth_eq]

theorem mnemonicOpcode_eq_opcode (o : BlockOp) (c : Bool) :
    mnemonicOpcode o.mnemonic = (opcode (o.instr c)).toNat := by
  rw [BlockOp.instr]
  cases o.mnemonic <;> rfl

/-- The operand fields of the operation of a line are those that the line names. -/
theorem instr_operands (o : BlockOp) (c : Bool) :
    (o.instr c).carryIn = c ∧ (o.instr c).highIndex = o.highIndex ∧ (o.instr c).lowIndex = o.lowIndex := by
  rw [BlockOp.instr]
  cases o.mnemonic <;> exact ⟨rfl, rfl, rfl⟩

theorem controlWord_eq_encode (o : BlockOp) (c : Bool) : o.controlWord c = encode (o.instr c) := by
  obtain ⟨hcin, hhi, hlo⟩ := instr_operands o c
  rw [BlockOp.controlWord, mnemonicOpcode_eq_opcode o c, ofNat_shiftLeft_or, encode, hcin, hhi, hlo]

end Assembler

section HostVariables

/-! ### Host variables (R52) -/

variable {α : Type} (vars : List (VarName × α))

@[simp] theorem lookupVar_setVar_same (v : VarName) (x : α) : lookupVar (setVar vars v x) v = some x := by
  induction vars with
  | nil => simp [setVar, lookupVar]
  | cons entry rest ih =>
    by_cases h : entry.1 = v
    · simp [setVar, lookupVar, h]
    · simp [setVar, lookupVar, h, ih]

theorem lookupVar_setVar_ne {u v : VarName} (h : u ≠ v) (x : α) :
    lookupVar (setVar vars v x) u = lookupVar vars u := by
  induction vars with
  | nil => simp [setVar, lookupVar, h.symm]
  | cons entry rest ih =>
    by_cases hv : entry.1 = v
    · simp [setVar, lookupVar, hv, h.symm]
    · simp [setVar, lookupVar, hv, ih]

end HostVariables

section TakenOutputs

/-! ### The outputs that a host program takes (R17, R49) -/

@[simp] theorem takeOutputs_block (k : CallerState) (o : BlockOp) (t : State) : (takeOutputs k o t).block = t := by
  rw [takeOutputs]; cases t.outputs <;> rfl

@[simp] theorem takeOutputs_nextStep (k : CallerState) (o : BlockOp) (t : State) :
    (takeOutputs k o t).nextStep = k.nextStep + 1 := by
  rw [takeOutputs]; cases t.outputs <;> rfl

variable {t : State} {out : Outputs} (hout : t.outputs = some out) (k : CallerState)
include hout

theorem takeOutputs_words (o : BlockOp) : (takeOutputs k o t).words = setVar k.words o.result out.result := by
  rw [takeOutputs, hout]

theorem takeOutputs_bits_named {o : BlockOp} {v : VarName} (hv : o.carryOut = some v) :
    (takeOutputs k o t).bits = setVar k.bits v out.carryOut := by
  simp only [takeOutputs, hout, hv]

theorem takeOutputs_bits_discarded {o : BlockOp} (hv : o.carryOut = none) : (takeOutputs k o t).bits = k.bits := by
  simp only [takeOutputs, hout, hv]

/-- A 1-bit variable that does not take the carry keeps its value, whether the carry goes elsewhere or nowhere. -/
theorem lookupVar_takeOutputs_bits_ne {o : BlockOp} {v : VarName} (hv : o.carryOut ≠ some v) :
    lookupVar (takeOutputs k o t).bits v = lookupVar k.bits v := by
  cases hc : o.carryOut with
  | none => rw [takeOutputs_bits_discarded hout k hc]
  | some c =>
    have hne : v ≠ c := fun h => hv (h ▸ hc)
    rw [takeOutputs_bits_named hout k hc, lookupVar_setVar_ne _ hne]

end TakenOutputs

section HostBlock

/-! ### A block operation of a host program (R49, R52) -/

/-- The host drives the fields of the operation's control word, which are its mode bits, its carry-in and its range. -/
theorem blockInputs_eq (o : BlockOp) (a b : Word) (c : Bool) :
    blockInputs o a b c =
      { decimalMode := (o.instr c).decimalMode, subtract := (o.instr c).subtract, operandA := a, operandB := b,
        carryIn := c, lowIndex := o.lowIndex, highIndex := o.highIndex } := by
  obtain ⟨hdec, hsub, hcin, hhi, hlo⟩ := fields_of_ports
    (Inputs.idle.withControl (o.instr c).decimalMode (o.instr c).subtract (o.instr c).carryIn (o.instr c).highIndex
      (o.instr c).lowIndex)
  obtain ⟨hcin', hhi', hlo'⟩ := instr_operands o c
  rw [← encode_eq_controlWordOf, ← controlWord_eq_encode] at hdec hsub hcin hhi hlo
  simp only [withControl_decimalMode, withControl_subtract, withControl_carryIn, withControl_highIndex,
    withControl_lowIndex, hcin', hhi', hlo'] at hdec hsub hcin hhi hlo
  simp only [blockInputs, hdec, hsub, hcin, hhi, hlo]

/-- A transaction on a well-formed input set completes with outputs, computed or drawn (R66, R90). -/
theorem transaction_completes (s : State) {p : Inputs} (hwf : p.WellFormed) :
    ∃ (t : State) (out : Outputs), transaction s p = .next t ∧ t.outputs = some out := by
  rw [transaction_eq_transact]
  rcases transact_cases p (s.drive p) with ⟨hinverted, -⟩ | ⟨-, -, hnext⟩ | ⟨-, -, hnext⟩
  · exact absurd hwf (Nat.not_le.2 hinverted)
  · exact ⟨_, _, hnext, rfl⟩
  · exact ⟨_, _, hnext, rfl⟩

theorem callerBlock_next {k : CallerState} {o : BlockOp} {a b : Word} {c : Bool} {t : State}
    (ha : evalWord k o.a = .ok a) (hb : evalWord k o.b = .ok b) (hc : evalBit k o.carryIn = .ok c)
    (ht : transaction k.block (blockInputs o a b c) = .next t) : callerBlock k o = .ok (takeOutputs k o t) := by
  simp only [callerBlock, ha, hb, hc, ht]

end HostBlock

section Settled

/-! ### The obligations -/

/-- Settles O1: the encoder writes what ports driven to the fields of the operation present, which decode to it. -/
theorem decodeOfEncodeIsTheOperation : Obligations.DecodeOfEncodeIsTheOperation := by
  intro i hwf
  have hordered : ¬i.highIndex.toNat < i.lowIndex.toNat := Nat.not_lt.2 hwf
  rw [encode_eq_controlWordOf Inputs.idle, decode_controlWordOf]
  simp only [withControl_decimalMode, withControl_subtract, withControl_carryIn, withControl_highIndex,
    withControl_lowIndex, if_neg hordered, selectOperation_self]

/-- Settles O2: the operation is the one that the fields select, and the fields make up the whole word. -/
theorem encodeOfDecodeIsTheControlWord : Obligations.EncodeOfDecodeIsTheControlWord := by
  intro cw i hdecode
  obtain ⟨hordered, rfl⟩ := (decode_eq_ok_iff cw i).1 hdecode
  obtain ⟨-, -, -, hhi, hlo⟩ := selectOperation_fields (cwDecimalMode cw) (cwSubtract cw) (cwCarryIn cw)
    (cwHighIndex cw) (cwLowIndex cw)
  refine ⟨encode_selectOperation_fields cw, ?_⟩
  rw [Instr.WellFormed, hhi, hlo]
  exact hordered

/-- Settles O6. -/
theorem assembledFormIsTheEncoding : Obligations.AssembledFormIsTheEncoding := controlWord_eq_encode

/-- Settles O40: the transaction of the driven fields completes, and the host takes its outputs. -/
theorem callerBlockWritesOnlyItsVariables : Obligations.CallerBlockWritesOnlyItsVariables := by
  intro k o a b cin hwf ha hb hc
  obtain ⟨t, out, ht, hout⟩ := transaction_completes k.block (p := blockInputs o a b cin)
    (by rw [blockInputs_eq]; exact hwf)
  refine ⟨takeOutputs k o t, out, callerBlock_next ha hb hc ht, ?_, ?_, takeOutputs_nextStep k o t, ?_, ?_, ?_,
    fun _ => lookupVar_takeOutputs_bits_ne hout k⟩
  · rw [← blockInputs_eq, ht, takeOutputs_block]
  · rw [takeOutputs_block, hout]
  · rw [takeOutputs_words hout, lookupVar_setVar_same]
  · intro v hv
    rw [takeOutputs_words hout, lookupVar_setVar_ne _ hv]
  · intro v hv
    rw [takeOutputs_bits_named hout k hv, lookupVar_setVar_same]

/-- Settles O3. -/
theorem reservedWordsAreTheInvertedRanges : Obligations.ReservedWordsAreTheInvertedRanges := by
  refine ⟨decode_eq_error_iff, fun cw h => ⟨_, decode_of_ordered h⟩, ?_, ?_, fun s h => ?_⟩
  · rw [← List.countP_eq_length_filter, countP_isReserved]
  · rw [← List.countP_eq_length_filter, countP_not_isReserved]
  · rw [step, (isReserved_eq_true_iff _).1 h]
    rfl

/-- Settles O4: six words, each evaluated by the decoder. -/
theorem writtenOutWordsDecode : Obligations.WrittenOutWordsDecode := by
  refine ⟨?_, ?_, ?_, ?_, ?_, ?_⟩ <;> decide

/-- Settles O5: the ports of an increment present the control word of its operation, whatever `a` is. -/
theorem incrementControlWords : Obligations.IncrementControlWords := by
  have hincM : encode incMInstr = 0x5C3#11 := by decide
  have hincX : encode incXInstr = 0x510#11 := by decide
  exact ⟨hincM, hincX, fun a => ⟨(controlWordOf_eq_encode (incMInputs a)).trans hincM, rfl, rfl⟩,
    fun a => ⟨(controlWordOf_eq_encode (incXInputs a)).trans hincX, rfl, rfl⟩⟩

/-- Settles O8: under the mask the word is the match value of the row that the two mode ports select. -/
theorem opcodeBitsSelectTheOperation : Obligations.OpcodeBitsSelectTheOperation := by
  intro s hwf
  dsimp only
  rw [step_eq_exec_selectOperation hwf, controlWordOf_eq_encode, encode_and_mask]
  cases s.inputs.decimalMode <;> cases s.inputs.subtract <;> simp [selectOperation, TableMatch.rowMatch]

/-- Settles O9: the ports present the driven word, so the step runs what it decodes to. -/
theorem drivenControlWordIsRun : Obligations.DrivenControlWordIsRun := by
  intro s w i h
  apply stepRunsTheDecodedOperation
  rw [withFetchWord_eq, controlWordOf_withControlWord, decode_of_decodeTableWord h]

end Settled

end Sys2Proof.Proofs

/-! PROOFS. The family of 40_datapath.md: the digit cell is its table, `AddSub` is the fixed chain, the range is isolated,
and the four operations add and subtract the values of digit ranges. -/

namespace Sys2Proof.Proofs

open Sys2Proof Sys2Proof.Machine Sys2Proof.Laws

section CompletedOperations

/-! ### What a well-formed transaction answers -/

/-- The data words hold valid digits of the mode in every active slot: in decimal mode 0..9, and in hexadecimal mode
whatever they hold (R14). -/
def HasModeDigits (p : Inputs) : Prop :=
  p.decimalMode = true →
    validDigits p.lowIndex p.highIndex p.operandA = true ∧ validDigits p.lowIndex p.highIndex p.operandB = true

/-- Hexadecimal operations accept every digit. -/
theorem hasModeDigits_hex {p : Inputs} (hdec : p.decimalMode = false) : HasModeDigits p :=
  fun h => absurd (h.symm.trans hdec) (by decide)

theorem drawsOutputs_of_hasModeDigits (strict : Bool) {p : Inputs} (hdigits : HasModeDigits p) :
    drawsOutputs strict p = false := by
  cases hdec : p.decimalMode with
  | false => exact drawsOutputs_hex strict p hdec
  | true =>
    obtain ⟨ha, hb⟩ := hdigits hdec
    exact drawsOutputs_valid strict p ha hb

theorem transact_computed {p : Inputs} {s : State} (hwf : p.WellFormed) (hnodraw : drawsOutputs s.strictBcd p = false) :
    transact p s = .next { s with outputs := some (computedOutputs p) } := by
  rcases transact_cases p s with ⟨hinverted, -⟩ | ⟨-, -, hnext⟩ | ⟨-, hdraw, -⟩
  · exact absurd hwf (Nat.not_le.2 hinverted)
  · exact hnext
  · exact absurd (hnodraw.symm.trans hdraw) (by decide)

theorem transact_drawn {p : Inputs} {s : State} (hwf : p.WellFormed) (hdraw : drawsOutputs s.strictBcd p = true) :
    transact p s = .next { s with outputs := some (drawnOutputs p s.draws), draws := s.draws + 1 } := by
  rcases transact_cases p s with ⟨hinverted, -⟩ | ⟨-, hnodraw, -⟩ | ⟨-, -, hnext⟩
  · exact absurd hwf (Nat.not_le.2 hinverted)
  · exact absurd (hdraw.symm.trans hnodraw) (by decide)
  · exact hnext

/-- The ports as an operation on the data words of a state reads them. -/
abbrev operationInputs (i : Instr) (s : State) : Inputs :=
  s.inputs.withControl i.decimalMode i.subtract i.carryIn i.highIndex i.lowIndex

/-- An operation on valid digits of its mode computes its outputs, for either `strict_bcd`. -/
theorem exec_of_hasModeDigits {i : Instr} {s : State} {o : Outputs} (hwf : i.WellFormed)
    (hdigits : HasModeDigits (operationInputs i s)) (ho : computedOutputs (operationInputs i s) = o) :
    exec i s = .next { s with outputs := some o } := by
  rw [exec_eq_transact, ← ho]
  exact transact_computed hwf (drawsOutputs_of_hasModeDigits _ hdigits)

/-- An operation with `strict_bcd` off computes its outputs, for digits A to F too (R65). -/
theorem exec_default {i : Instr} {s : State} {o : Outputs} (hwf : i.WellFormed) (hs : s.strictBcd = false)
    (ho : computedOutputs (operationInputs i s) = o) : exec i s = .next { s with outputs := some o } := by
  rw [exec_eq_transact, ← ho]
  exact transact_computed hwf (by rw [hs, drawsOutputs_default])

theorem step_default {s : State} (hwf : s.inputs.WellFormed) (hs : s.strictBcd = false) :
    step s = .next { s with outputs := some (computedOutputs s.inputs) } := by
  rw [step_eq_transact]
  exact transact_computed hwf (by rw [hs, drawsOutputs_default])

end CompletedOperations

section Isolation

/-! ### The mask and range isolation (R54, R55) -/

@[simp] theorem slot_zero (i : Nat) : slot 0#64 i = 0#4 := by
  simp [slot]

theorem slot_allOnes {i : Nat} (hi : i < 16) : slot (BitVec.allOnes 64) i = 0xF#4 := by
  apply BitVec.eq_of_getLsbD_eq
  intro k hk
  have hones : (0xF#4).getLsbD k = true := by
    have : ∀ j : Fin 4, (0xF#4).getLsbD j.val = true := by decide
    exact this ⟨k, hk⟩
  rw [slot_getLsbD, BitVec.getLsbD_allOnes, hones]
  simp [hk, show 4 * i + k < 64 by omega]

/-- The mask takes the active slots from a word of ones and the others from a word of zeros. -/
theorem slot_activeMask (lo hi : SlotIndex) {i : Nat} (hi16 : i < 16) :
    slot (activeMask lo hi) i = if Active lo hi i then 0xF#4 else 0#4 := by
  have hmerge := slot_merge lo hi (BitVec.allOnes 64) 0#64 i hi16
  rwa [BitVec.allOnes_and, BitVec.zero_and, BitVec.or_zero, slot_allOnes hi16, slot_zero] at hmerge

theorem slot_and_not_activeMask (lo hi : SlotIndex) (w : Word) {i : Nat} (hi16 : i < 16) :
    slot (w &&& ~~~activeMask lo hi) i = if Active lo hi i then 0#4 else slot w i := by
  have hmerge := slot_merge lo hi 0#64 w i hi16
  rwa [BitVec.zero_and, BitVec.zero_or, slot_zero] at hmerge

/-- Words that agree in the inactive slots agree under the inverted mask. -/
theorem and_not_activeMask_congr {lo hi : SlotIndex} {w v : Word} (h : InactiveSlotsAgree lo hi w v) :
    w &&& ~~~activeMask lo hi = v &&& ~~~activeMask lo hi := by
  apply word_eq_of_slots
  intro i hi16
  rw [slot_and_not_activeMask _ _ _ hi16, slot_and_not_activeMask _ _ _ hi16]
  split
  · rfl
  · next hout => exact h i hi16 hout

variable {p : Inputs} {b : Word} (hb : ∀ i, Active p.lowIndex p.highIndex i → slot b i = slot p.operandB i)
include hb

/-- Whether the outputs are a draw depends on the active slots of `operand_b` alone. -/
theorem drawsOutputs_operandB_congr (strict : Bool) :
    drawsOutputs strict { p with operandB := b } = drawsOutputs strict p := by
  have hvalid : validDigits p.lowIndex p.highIndex b = validDigits p.lowIndex p.highIndex p.operandB := by
    rw [Bool.eq_iff_iff, validDigits_iff, validDigits_iff]
    exact forall₂_congr fun i hi => by rw [hb i hi]
  simp only [drawsOutputs, hvalid]

/-- The cells of the range read the active slots of `operand_b` alone. -/
theorem computedOutputs_operandB_congr (hwf : p.WellFormed) :
    computedOutputs { p with operandB := b } = computedOutputs p := by
  have hchain := ripple_congr p.decimalMode p.subtract p.operandA b p.operandA p.operandB
    (rangeWidth p.lowIndex p.highIndex) p.lowIndex.toNat p.operandA (seedCarry p.carryIn p.subtract)
    fun j hlo hhi => ⟨rfl, hb j ⟨hlo, by unfold rangeWidth at hhi; omega⟩⟩
  simp only [computedOutputs, hchain]

end Isolation

section CellTable

/-! ### The digit cell as a table (R67) -/

/-- After the decimal adjust, the low four bits and the carry are those of the table, for every sum of two digits and a
carry. -/
theorem decimalAdjust_eq_cellTable (dec sub : Bool) {raw : Nat} (hraw : raw ≤ 31) :
    (decimalAdjust dec sub raw (decide (15 < raw))).1 % 16 = (cellTable dec sub raw).1 ∧
      (decimalAdjust dec sub raw (decide (15 < raw))).2 = (cellTable dec sub raw).2 := by
  cases dec with
  | false =>
    rw [decimalAdjust_hex]
    by_cases h15 : raw ≤ 15
    · have hmod : raw % 16 = raw := by omega
      simp [cellTable, h15, hmod]
    · have hmod : raw % 16 = raw - 16 := by omega
      simp [cellTable, h15, hmod, Nat.not_le.1 h15]
  | true =>
    cases sub with
    | false =>
      by_cases h9 : raw ≤ 9
      · have hmod : raw % 16 = raw := by omega
        simp [decimalAdjust, cellTable, h9, hmod, Nat.not_lt.2 h9, show raw ≤ 15 by omega]
      · by_cases h25 : raw ≤ 25
        · have hmod : (raw + 6) % 16 = raw - 10 := by omega
          simp [decimalAdjust, cellTable, h9, h25, hmod, Nat.not_le.1 h9]
        · have hmod : (raw + 6) % 16 = raw - 26 := by omega
          simp [decimalAdjust, cellTable, h9, h25, hmod, Nat.not_le.1 h9]
    | true =>
      by_cases h5 : raw ≤ 5
      · have hmod : (raw + 10) % 16 = raw + 10 := by omega
        simp [decimalAdjust, cellTable, h5, hmod, show ¬15 < raw by omega]
      · by_cases h15 : raw ≤ 15
        · have hmod : (raw + 10) % 16 = raw - 6 := by omega
          simp [decimalAdjust, cellTable, h5, h15, hmod, Nat.not_lt.2 h15]
        · have hmod : raw % 16 = raw - 16 := by omega
          simp [decimalAdjust, cellTable, h5, h15, hmod, Nat.not_le.1 h15]

theorem digitCell_eq_cellTable (dec sub : Bool) (da db : Digit) (c : Bool) :
    (digitCell dec sub da db c).1.toNat =
        (cellTable dec sub (da.toNat + (complementDigit sub db).toNat + c.toNat)).1 ∧
      (digitCell dec sub da db c).2 =
        (cellTable dec sub (da.toNat + (complementDigit sub db).toNat + c.toNat)).2 := by
  rw [digitCell_digit_toNat]
  exact decimalAdjust_eq_cellTable dec sub (binaryAdd_raw_le da (complementDigit sub db) c)

end CellTable

section CellEquation

/-! ### What one digit cell adds or subtracts

A carry is read in the caller's sense (R13), so that it is a borrow when subtracting. Then a subtraction is an addition
read backwards: the digit of the result, the digit of `operand_b` and the borrow make up the digit of `operand_a`. -/

/-- The base of the digits of a mode. -/
def digitBase (dec : Bool) : Nat := if dec then 10 else 16

/-- The addition cell: the digit and the carry are the digits of the sum. -/
theorem digitCell_add {dec : Bool} {da db : Digit} (c : Bool)
    (hdigits : dec = true → da.toNat ≤ 9 ∧ db.toNat ≤ 9) :
    da.toNat + db.toNat + c.toNat =
      (digitCell dec false da db c).1.toNat + digitBase dec * (digitCell dec false da db c).2.toNat := by
  obtain ⟨hdigit, hcarry⟩ := digitCell_eq_cellTable dec false da db c
  have hc := Bool.toNat_le c
  rw [hdigit, hcarry, complementDigit_toNat, if_neg Bool.false_ne_true]
  cases dec with
  | false =>
    simp only [cellTable, digitBase, Bool.false_eq_true, if_false]
    split <;> simp only [Bool.toNat_true, Bool.toNat_false] <;> omega
  | true =>
    have := hdigits rfl
    rw [cellTable, digitBase, if_pos rfl]
    split
    · simp
    · rw [if_pos (by omega)]; simp only [Bool.toNat_true]; omega

/-- The subtraction cell: the digit and the borrow are those with which the subtrahend makes up the minuend. -/
theorem digitCell_sub {dec : Bool} {da db : Digit} (c : Bool)
    (hdigits : dec = true → da.toNat ≤ 9 ∧ db.toNat ≤ 9) :
    (digitCell dec true da db c).1.toNat + db.toNat + (!c).toNat =
      da.toNat + digitBase dec * (!(digitCell dec true da db c).2).toNat := by
  obtain ⟨hdigit, hcarry⟩ := digitCell_eq_cellTable dec true da db c
  have hc := Bool.toNat_le c
  have hborrow : (!c).toNat = 1 - c.toNat := by cases c <;> rfl
  have hdb := db.isLt
  rw [hdigit, hcarry, hborrow, complementDigit_toNat, if_pos rfl]
  cases dec with
  | false =>
    simp only [cellTable, digitBase, Bool.false_eq_true, if_false]
    split <;> simp only [Bool.not_true, Bool.not_false, Bool.toNat_true, Bool.toNat_false] <;> omega
  | true =>
    have := hdigits rfl
    rw [cellTable, digitBase, if_pos rfl, if_neg (by omega)]
    split <;> simp only [Bool.not_true, Bool.not_false, Bool.toNat_true, Bool.toNat_false] <;> omega

theorem digit_lt_digitBase {dec : Bool} {d : Digit} (h : dec = true → d.toNat ≤ 9) : d.toNat < digitBase dec := by
  cases dec with
  | false => exact d.isLt
  | true => exact Nat.lt_succ_of_le (h rfl)

theorem digitCell_digit_lt_digitBase {dec : Bool} (sub : Bool) {da db : Digit} (c : Bool)
    (hdigits : dec = true → da.toNat ≤ 9 ∧ db.toNat ≤ 9) :
    (digitCell dec sub da db c).1.toNat < digitBase dec := by
  refine digit_lt_digitBase fun hdec => ?_
  obtain ⟨ha, hb⟩ := hdigits hdec
  rw [hdec]
  exact digitCell_decimal_le_nine sub c ha hb

theorem bool_toNat_injective : Function.Injective Bool.toNat := by decide

/-- The subtraction cell takes back what the addition cell has added, and borrows where that has carried. -/
theorem digitCell_sub_digitCell_add {dec : Bool} {da db : Digit} (c : Bool)
    (hdigits : dec = true → da.toNat ≤ 9 ∧ db.toNat ≤ 9) :
    digitCell dec true (digitCell dec false da db c).1 db (!c) = (da, !(digitCell dec false da db c).2) := by
  have hsum : dec = true → (digitCell dec false da db c).1.toNat ≤ 9 ∧ db.toNat ≤ 9 := fun hdec => by
    have hlt := digitCell_digit_lt_digitBase false c hdigits
    rw [digitBase, if_pos hdec] at hlt
    exact ⟨Nat.le_of_lt_succ hlt, (hdigits hdec).2⟩
  have hadd := digitCell_add c hdigits
  have hsub := digitCell_sub (!c) hsum
  have hda : da.toNat < digitBase dec := digit_lt_digitBase fun hdec => (hdigits hdec).1
  have hlt := digitCell_digit_lt_digitBase true (!c) hsum
  rw [Bool.not_not] at hsub
  generalize digitCell dec true (digitCell dec false da db c).1 db (!c) = undone at hsub hlt ⊢
  have hboth : undone.1.toNat + digitBase dec * (digitCell dec false da db c).2.toNat =
      da.toNat + digitBase dec * (!undone.2).toNat := by omega
  have hdigit : undone.1.toNat = da.toNat := by
    simpa [Nat.mod_eq_of_lt, hlt, hda] using congrArg (· % digitBase dec) hboth
  have hcarry : (digitCell dec false da db c).2.toNat = (!undone.2).toNat := by
    refine Nat.eq_of_mul_eq_mul_left (Nat.zero_lt_of_lt hda) ?_
    omega
  exact Prod.ext (BitVec.eq_of_toNat_eq hdigit) (by rw [bool_toNat_injective hcarry, Bool.not_not])

end CellEquation

section RangeValues

/-! ### The values of digit ranges (R69) -/

/-- The value of `n` slots from slot `lo` upwards. -/
def slotsValue (base lo : Nat) (w : Word) (n : Nat) : Nat :=
  ∑ j ∈ Finset.range n, (slot w (lo + j)).toNat * base ^ j

theorem rangeValue_eq_slotsValue (base : Nat) (lo hi : SlotIndex) (w : Word) :
    rangeValue base lo hi w = slotsValue base lo.toNat w (rangeWidth lo hi) := rfl

theorem slotsValue_succ (base lo : Nat) (w : Word) (n : Nat) :
    slotsValue base lo w (n + 1) = slotsValue base lo w n + (slot w (lo + n)).toNat * base ^ n :=
  Finset.sum_range_succ _ n

theorem slotsValue_lt {base lo n : Nat} {w : Word} (h : ∀ j, j < n → (slot w (lo + j)).toNat < base) :
    slotsValue base lo w n < base ^ n := by
  induction n with
  | zero => exact Nat.one_pos
  | succ n ih =>
    have hlow := ih fun j hj => h j (by omega)
    calc slotsValue base lo w (n + 1)
        = slotsValue base lo w n + (slot w (lo + n)).toNat * base ^ n := slotsValue_succ base lo w n
      _ < ((slot w (lo + n)).toNat + 1) * base ^ n := by rw [Nat.succ_mul]; omega
      _ ≤ base * base ^ n := Nat.mul_le_mul_right _ (h n (by omega))
      _ = base ^ (n + 1) := (Nat.pow_succ').symm

/-- Cells that each add two digits and a carry add the values of their ranges: the carries between the cells cancel. -/
theorem slotsValue_add {base lo n : Nat} {x y z : Word} {k : Nat → Bool}
    (hcell : ∀ j, j < n →
      (slot x (lo + j)).toNat + (slot y (lo + j)).toNat + (k (lo + j)).toNat =
        (slot z (lo + j)).toNat + base * (k (lo + j + 1)).toNat) :
    slotsValue base lo x n + slotsValue base lo y n + (k lo).toNat =
      slotsValue base lo z n + base ^ n * (k (lo + n)).toNat := by
  induction n with
  | zero => simp [slotsValue]
  | succ n ih =>
    have hlow := ih fun j hj => hcell j (by omega)
    rw [slotsValue_succ, slotsValue_succ, slotsValue_succ]
    calc slotsValue base lo x n + (slot x (lo + n)).toNat * base ^ n +
          (slotsValue base lo y n + (slot y (lo + n)).toNat * base ^ n) + (k lo).toNat
        = slotsValue base lo x n + slotsValue base lo y n + (k lo).toNat +
            ((slot x (lo + n)).toNat + (slot y (lo + n)).toNat) * base ^ n := by ring
      _ = slotsValue base lo z n +
            ((slot x (lo + n)).toNat + (slot y (lo + n)).toNat + (k (lo + n)).toNat) * base ^ n := by rw [hlow]; ring
      _ = slotsValue base lo z n + (slot z (lo + n)).toNat * base ^ n +
            base ^ (n + 1) * (k (lo + (n + 1))).toNat := by rw [hcell n (by omega), Nat.add_assoc lo]; ring

/-- A number below the modulus and a carry of the modulus are the residue of their sum and whether it overflows. -/
theorem residue_of_add {modulus r total : Nat} {c : Bool} (hr : r < modulus) (htotal : total = r + modulus * c.toNat) :
    r = total % modulus ∧ (c = true ↔ modulus ≤ total) := by
  rw [htotal, Nat.add_mul_mod_self_left, Nat.mod_eq_of_lt hr]
  cases c with
  | false => simpa using hr
  | true => simp

/-- A number below the modulus and a borrow of the modulus are the non-negative residue of a difference and whether the
difference is negative. -/
theorem residue_of_sub {modulus r a b k : Nat} {c : Bool} (hr : r < modulus)
    (hminuend : r + b + k = a + modulus * c.toNat) :
    (r : Int) = ((a : Int) - b - k) % (modulus : Int) ∧ (c = true ↔ (a : Int) - b - k < 0) := by
  have hdifference : (a : Int) - b - k = r - modulus * c.toNat := by
    have := congrArg (Nat.cast : Nat → Int) hminuend
    push_cast at this
    omega
  rw [hdifference, Int.sub_mul_emod_self_left, Int.emod_eq_of_lt (Int.natCast_nonneg r) (Int.ofNat_lt.2 hr)]
  cases c with
  | false => simp
  | true => simpa using hr

end RangeValues

section CarryChain

/-! ### The carries of a transaction in the caller's sense (R13, R56, R63) -/

/-- The carry, or the borrow when subtracting, into slot `i`. -/
def carryAt (p : Inputs) (i : Nat) : Bool := externalCarry (fixedChain p i).2 p.subtract

variable {p : Inputs}

theorem carryAt_add (hsub : p.subtract = false) (i : Nat) : carryAt p i = (fixedChain p i).2 := by
  rw [carryAt, externalCarry, hsub, Bool.xor_false]

theorem carryAt_sub (hsub : p.subtract = true) (i : Nat) : carryAt p i = !(fixedChain p i).2 := by
  rw [carryAt, externalCarry, hsub, Bool.xor_true]

theorem fixedChain_carry_succ {i : Nat} (hi : Active p.lowIndex p.highIndex i) :
    (fixedChain p (i + 1)).2 =
      (digitCell p.decimalMode p.subtract (slot p.operandA i) (slot p.operandB i) (fixedChain p i).2).2 := by
  rw [fixedChain_succ, chainCell_active hi]

variable (hwf : p.WellFormed)
include hwf

theorem carryAt_lowIndex : carryAt p p.lowIndex.toNat = p.carryIn := by
  rw [carryAt, fixedChain_carry p hwf, Nat.sub_self, Nat.zero_min, carryInto, externalCarry, seedCarry, Bool.xor_assoc,
    Bool.xor_self, Bool.xor_false]

theorem carryAt_above_range : carryAt p (p.lowIndex.toNat + rangeWidth p.lowIndex p.highIndex) =
    (computedOutputs p).carryOut := by
  have hhi := p.highIndex.isLt
  rw [computedOutputs_carryOut p hwf, carryAt, fixedChain_carry p hwf, fixedChain_carry p hwf]
  congr 2
  unfold rangeWidth
  omega

end CarryChain

section RangeLaws

/-! ### The laws of addition and subtraction on digit ranges (R70 to R73) -/

variable {p : Inputs}

theorem HasModeDigits.digits_le_nine (hdigits : HasModeDigits p) {i : Nat} (hi : Active p.lowIndex p.highIndex i)
    (hdec : p.decimalMode = true) : (slot p.operandA i).toNat ≤ 9 ∧ (slot p.operandB i).toNat ≤ 9 := by
  obtain ⟨ha, hb⟩ := hdigits hdec
  exact ⟨(validDigits_iff _ _ _).1 ha i hi, (validDigits_iff _ _ _).1 hb i hi⟩

theorem active_of_lt_rangeWidth (hwf : p.WellFormed) {j : Nat} (hj : j < rangeWidth p.lowIndex p.highIndex) :
    Active p.lowIndex p.highIndex (p.lowIndex.toNat + j) := by
  have hwf' : p.lowIndex.toNat ≤ p.highIndex.toNat := hwf
  unfold rangeWidth at hj
  exact ⟨by omega, by omega⟩

variable (hwf : p.WellFormed) (hdigits : HasModeDigits p)
include hwf hdigits

theorem computedOutputs_rangeValue_lt :
    rangeValue (digitBase p.decimalMode) p.lowIndex p.highIndex (computedOutputs p).result <
      digitBase p.decimalMode ^ rangeWidth p.lowIndex p.highIndex := by
  rw [rangeValue_eq_slotsValue]
  refine slotsValue_lt fun j hj => ?_
  have hactive := active_of_lt_rangeWidth hwf hj
  rw [computedOutputs_active p hwf hactive]
  exact digitCell_digit_lt_digitBase _ _ (hdigits.digits_le_nine hactive)

/-- An addition: the result and the carry out are the digits of the sum. -/
theorem computedOutputs_add_rangeValue (hsub : p.subtract = false) :
    rangeValue (digitBase p.decimalMode) p.lowIndex p.highIndex p.operandA +
        rangeValue (digitBase p.decimalMode) p.lowIndex p.highIndex p.operandB + p.carryIn.toNat =
      rangeValue (digitBase p.decimalMode) p.lowIndex p.highIndex (computedOutputs p).result +
        digitBase p.decimalMode ^ rangeWidth p.lowIndex p.highIndex * (computedOutputs p).carryOut.toNat := by
  rw [← carryAt_lowIndex hwf, ← carryAt_above_range hwf]
  refine slotsValue_add fun j hj => ?_
  have hactive := active_of_lt_rangeWidth hwf hj
  rw [computedOutputs_active p hwf hactive, carryAt_add hsub, carryAt_add hsub, fixedChain_carry_succ hactive, hsub]
  exact digitCell_add _ (hdigits.digits_le_nine hactive)

/-- A subtraction is an addition read backwards: the result and `operand_b` make up `operand_a` and the borrow out. -/
theorem computedOutputs_sub_rangeValue (hsub : p.subtract = true) :
    rangeValue (digitBase p.decimalMode) p.lowIndex p.highIndex (computedOutputs p).result +
        rangeValue (digitBase p.decimalMode) p.lowIndex p.highIndex p.operandB + p.carryIn.toNat =
      rangeValue (digitBase p.decimalMode) p.lowIndex p.highIndex p.operandA +
        digitBase p.decimalMode ^ rangeWidth p.lowIndex p.highIndex * (computedOutputs p).carryOut.toNat := by
  rw [← carryAt_lowIndex hwf, ← carryAt_above_range hwf]
  refine slotsValue_add fun j hj => ?_
  have hactive := active_of_lt_rangeWidth hwf hj
  rw [computedOutputs_active p hwf hactive, carryAt_sub hsub, carryAt_sub hsub, fixedChain_carry_succ hactive, hsub]
  exact digitCell_sub _ (hdigits.digits_le_nine hactive)

end RangeLaws

section OperationLaws

/-! ### The laws of the operations, for both modes (R70 to R73) -/

variable {i : Instr} {s : State} (hwf : i.WellFormed) (hdigits : HasModeDigits (operationInputs i s))
include hwf hdigits

/-- An addition answers the sum of the range values modulo the power of the base, and carries where the sum reaches it. -/
theorem exec_add_rangeValue (hsub : i.subtract = false) :
    let base := digitBase i.decimalMode
    let total := rangeValue base i.lowIndex i.highIndex s.inputs.operandA +
      rangeValue base i.lowIndex i.highIndex s.inputs.operandB + i.carryIn.toNat
    ∃ (r : Word) (c : Bool),
      exec i s = .next { s with outputs := some { result := r, carryOut := c } } ∧
      rangeValue base i.lowIndex i.highIndex r = total % base ^ rangeWidth i.lowIndex i.highIndex ∧
      (c = true ↔ base ^ rangeWidth i.lowIndex i.highIndex ≤ total) ∧
      (i.decimalMode = true → validDigits i.lowIndex i.highIndex r = true) ∧
      InactiveSlotsAgree i.lowIndex i.highIndex r s.inputs.operandA := by
  obtain ⟨hvalue, hcarry⟩ := residue_of_add (computedOutputs_rangeValue_lt hwf hdigits)
    (computedOutputs_add_rangeValue hwf hdigits hsub)
  refine ⟨_, _, exec_of_hasModeDigits hwf hdigits rfl, hvalue, hcarry, fun hdec => ?_,
    computedOutputs_inactive (operationInputs i s) hwf⟩
  obtain ⟨ha, hb⟩ := hdigits hdec
  exact computedOutputs_validDigits _ hwf hdec ha hb

/-- A subtraction answers the non-negative residue of the difference of the range values, and borrows where the
difference is negative. -/
theorem exec_sub_rangeValue (hsub : i.subtract = true) :
    let base := digitBase i.decimalMode
    let difference : Int := (rangeValue base i.lowIndex i.highIndex s.inputs.operandA : Int) -
      rangeValue base i.lowIndex i.highIndex s.inputs.operandB - i.carryIn.toNat
    ∃ (r : Word) (c : Bool),
      exec i s = .next { s with outputs := some { result := r, carryOut := c } } ∧
      (rangeValue base i.lowIndex i.highIndex r : Int) =
        difference % (base : Int) ^ rangeWidth i.lowIndex i.highIndex ∧
      (c = true ↔ difference < 0) ∧
      (i.decimalMode = true → validDigits i.lowIndex i.highIndex r = true) ∧
      InactiveSlotsAgree i.lowIndex i.highIndex r s.inputs.operandA := by
  obtain ⟨hvalue, hborrow⟩ := residue_of_sub (computedOutputs_rangeValue_lt hwf hdigits)
    (computedOutputs_sub_rangeValue hwf hdigits hsub)
  rw [Nat.cast_pow] at hvalue
  refine ⟨_, _, exec_of_hasModeDigits hwf hdigits rfl, hvalue, hborrow, fun hdec => ?_,
    computedOutputs_inactive (operationInputs i s) hwf⟩
  obtain ⟨ha, hb⟩ := hdigits hdec
  exact computedOutputs_validDigits _ hwf hdec ha hb

end OperationLaws

section AdditiveInverse

/-! ### Subtraction undoes addition (R74) -/

/-- The input set that subtracts `operand_b` from the result of an input set, with the carry in as the borrow in. -/
def undoInputs (p : Inputs) : Inputs := { p with subtract := true, operandA := (computedOutputs p).result }

/-- The result of an addition and `operand_b` are digits of the mode again. -/
theorem hasModeDigits_undoInputs {p : Inputs} (hwf : p.WellFormed) (hdigits : HasModeDigits p) :
    HasModeDigits (undoInputs p) := by
  intro hdec
  obtain ⟨ha, hb⟩ := hdigits hdec
  exact ⟨computedOutputs_validDigits p hwf hdec ha hb, hb⟩

variable {p : Inputs} (hwf : p.WellFormed) (hsub : p.subtract = false) (hdigits : HasModeDigits p)
include hwf hsub hdigits

/-- An active cell of the subtraction takes back what its cell of the addition has added. -/
theorem chainCell_undoInputs {i : Nat} (hi : Active p.lowIndex p.highIndex i) :
    chainCell (undoInputs p) i (!(fixedChain p i).2) = (slot p.operandA i, !(fixedChain p (i + 1)).2) := by
  rw [chainCell_active (p := undoInputs p) hi, fixedChain_carry_succ hi, undoInputs, computedOutputs_active p hwf hi,
    hsub]
  exact digitCell_sub_digitCell_add _ (hdigits.digits_le_nine hi)

/-- The subtraction borrows before the same slots as the addition carries. -/
theorem fixedChain_undoInputs_carry (i : Nat) : (fixedChain (undoInputs p) i).2 = !(fixedChain p i).2 := by
  induction i with
  | zero => simp [fixedChain, undoInputs, seedCarry, hsub]
  | succ i ih =>
    rw [fixedChain_succ, ih]
    by_cases hi : Active p.lowIndex p.highIndex i
    · rw [chainCell_undoInputs hwf hsub hdigits hi]
    · rw [chainCell_inactive (p := undoInputs p) hi, fixedChain_succ, chainCell_inactive hi]

/-- The subtraction gives the whole first operand back, and borrows out where the addition carries out. -/
theorem computedOutputs_undoInputs :
    computedOutputs (undoInputs p) = { result := p.operandA, carryOut := (computedOutputs p).carryOut } := by
  have hcarryOut : (computedOutputs (undoInputs p)).carryOut = (computedOutputs p).carryOut := by
    rw [computedOutputs_carryOut (undoInputs p) hwf, computedOutputs_carryOut p hwf,
      fixedChain_undoInputs_carry hwf hsub hdigits, externalCarry, externalCarry, undoInputs, hsub, Bool.xor_true,
      Bool.not_not, Bool.xor_false]
  have hresult : (computedOutputs (undoInputs p)).result = p.operandA := by
    apply word_eq_of_slots
    intro i hi16
    by_cases hi : Active p.lowIndex p.highIndex i
    · rw [computedOutputs_eq_fixedRipple (undoInputs p) hwf, fixedRipple_eq_fixedChain, fixedChain_slot _ hi16 le_rfl,
        fixedChain_undoInputs_carry hwf hsub hdigits, chainCell_undoInputs hwf hsub hdigits hi]
    · rw [computedOutputs_inactive (undoInputs p) hwf i hi16 hi]
      exact computedOutputs_inactive p hwf i hi16 hi
  rw [← hresult, ← hcarryOut]

end AdditiveInverse

section AddThenSubtract

/-! ### An addition and the subtraction on its result, as operations (R74) -/

/-- An addition, and a subtraction with the same fields on its result, which the host drives as `operand_a`. -/
theorem exec_sub_of_exec_add {add sub : Instr} {s : State} (hwf : add.WellFormed) (hadd : add.subtract = false)
    (hdigits : HasModeDigits (operationInputs add s))
    (hfields : ∀ u, operationInputs sub u = { operationInputs add u with subtract := true }) :
    ∃ (r : Word) (c d : Bool),
      exec add s = .next { s with outputs := some { result := r, carryOut := c } } ∧
      let u := s.drive { s.inputs with operandA := r }
      exec sub u = .next { u with outputs := some { result := s.inputs.operandA, carryOut := d } } := by
  refine ⟨_, _, (computedOutputs (operationInputs add s)).carryOut, exec_of_hasModeDigits hwf hdigits rfl, ?_⟩
  have hundo : operationInputs sub
      (s.drive { s.inputs with operandA := (computedOutputs (operationInputs add s)).result }) =
      undoInputs (operationInputs add s) := hfields _
  have hwfSub : (operationInputs sub s).WellFormed := by rw [hfields s]; exact hwf
  exact exec_of_hasModeDigits hwfSub (hundo ▸ hasModeDigits_undoInputs hwf hdigits)
    (hundo ▸ computedOutputs_undoInputs hwf hadd hdigits)

end AddThenSubtract

section InvalidDigits

/-! ### Operations for whose invalid digits the decimal laws fail (R72, R74) -/

/-- A single-digit decimal addition of the invalid digits F and F, for which the decimal law fails: it answers 4, where
30 is 0 modulo 10. -/
def invalidAddition : State :=
  { State.reset with inputs := { Inputs.idle with operandA := 0xF, operandB := 0xF } }

theorem exec_invalidAddition :
    exec (.addD false 0 0) invalidAddition =
      .next { invalidAddition with outputs := some { result := 0x4, carryOut := true } } :=
  exec_default (by decide) rfl (by decide)

/-- The decimal addition of the invalid digit A and 0 (the example of R74). -/
def tenPlusZero : Inputs := { Inputs.idle with decimalMode := true, operandA := 0xA }

/-- The digit A and 0 add to 0, and 0 less 0 is 0 again, not A. -/
theorem computedOutputs_tenPlusZero :
    computedOutputs tenPlusZero = { result := 0x0, carryOut := true } ∧
      computedOutputs (undoInputs tenPlusZero) = { result := 0x0, carryOut := false } := by
  decide

end InvalidDigits

section Settled

/-! ### The obligations -/

/-- Settles O16. -/
theorem strictInvalidDigitsAreDrawn : Obligations.StrictInvalidDigitsAreDrawn := by
  intro s i hwf hdec hnot
  have hdraw : drawsOutputs s.strictBcd (operationInputs i s) = true := (drawsOutputs_eq_true_iff _ _).2 ⟨hdec, hnot⟩
  refine ⟨(drawnOutputs (operationInputs i s) s.draws).result, ?_, fun j hj => ?_,
    drawnOutputs_inactive (operationInputs i s) s.draws⟩
  · rw [exec_eq_transact]
    exact transact_drawn hwf hdraw
  · have hhi := i.highIndex.isLt
    exact (slot_merge _ _ _ _ _ (by omega)).trans (if_pos hj)

/-- Settles O18: computed outputs read the active slots of `operand_b` only, and drawn outputs do not read it. -/
theorem rangeIsolation : Obligations.RangeIsolation := by
  intro s b hwf hb
  have hsame := drawsOutputs_operandB_congr hb s.strictBcd
  rw [step_eq_transact, step_eq_transact]
  cases hdraw : drawsOutputs s.strictBcd s.inputs with
  | false =>
    have hinactive := computedOutputs_inactive s.inputs hwf
    exact ⟨_, _, computedOutputs s.inputs, transact_computed hwf hdraw, transact_computed hwf (hsame.trans hdraw), rfl,
      congrArg some (computedOutputs_operandB_congr hb hwf), hinactive, and_not_activeMask_congr hinactive⟩
  | true =>
    have hinactive := drawnOutputs_inactive s.inputs s.draws
    exact ⟨_, _, drawnOutputs s.inputs s.draws, transact_drawn hwf hdraw, transact_drawn hwf (hsame.trans hdraw), rfl,
      rfl, hinactive, and_not_activeMask_congr hinactive⟩

/-- Settles O22. -/
theorem fixedRippleComputesAddSub : Obligations.FixedRippleComputesAddSub := by
  intro p hwf
  rw [addSub_wellFormed p hwf, computedOutputs_eq_fixedRipple p hwf]

/-- Settles O23. -/
theorem hexAdditionLaw : Obligations.HexAdditionLaw := by
  intro s cin hi lo hwf
  obtain ⟨r, c, hexec, hvalue, hcarry, -, hinactive⟩ :=
    exec_add_rangeValue (i := .addX cin hi lo) (s := s) hwf (hasModeDigits_hex rfl) rfl
  exact ⟨r, c, hexec, hvalue, hcarry, hinactive⟩

/-- Settles O24. -/
theorem hexSubtractionLaw : Obligations.HexSubtractionLaw := by
  intro s cin hi lo hwf
  obtain ⟨r, c, hexec, hvalue, hborrow, -, hinactive⟩ :=
    exec_sub_rangeValue (i := .subX cin hi lo) (s := s) hwf (hasModeDigits_hex rfl) rfl
  exact ⟨r, c, hexec, hvalue, hborrow, hinactive⟩

/-- Settles O25: the law for valid digits, and a state in which it fails. -/
theorem decimalAdditionLaw : Obligations.DecimalAdditionLaw := by
  refine ⟨fun s cin hi lo hwf ha hb => ?_,
    invalidAddition, false, 0, 0, 0x4, true, le_rfl, rfl, exec_invalidAddition, by decide⟩
  obtain ⟨r, c, hexec, hvalue, hcarry, hvalid, hinactive⟩ :=
    exec_add_rangeValue (i := .addD cin hi lo) (s := s) hwf (fun _ => ⟨ha, hb⟩) rfl
  exact ⟨r, c, hexec, hvalue, hcarry, hvalid rfl, hinactive⟩

/-- Settles O26. -/
theorem decimalSubtractionLaw : Obligations.DecimalSubtractionLaw := by
  intro s cin hi lo hwf ha hb
  obtain ⟨r, c, hexec, hvalue, hborrow, hvalid, hinactive⟩ :=
    exec_sub_rangeValue (i := .subD cin hi lo) (s := s) hwf (fun _ => ⟨ha, hb⟩) rfl
  exact ⟨r, c, hexec, hvalue, hborrow, hvalid rfl, hinactive⟩

/-- Settles O27: the law in both modes, and the example in which the digit A is not given back. -/
theorem subtractionUndoesAddition : Obligations.SubtractionUndoesAddition := by
  refine ⟨fun s k hi lo hwf => ?_, fun s k hi lo hwf ha hb => ?_, fun s hs ha hb => ?_⟩
  · exact exec_sub_of_exec_add (add := .addX k hi lo) (sub := .subX k hi lo) hwf rfl (hasModeDigits_hex rfl) fun _ => rfl
  · exact exec_sub_of_exec_add (add := .addD k hi lo) (sub := .subD k hi lo) hwf rfl (fun _ => ⟨ha, hb⟩) fun _ => rfl
  · obtain ⟨hsum, hdifference⟩ := computedOutputs_tenPlusZero
    have hadd : operationInputs (.addD false 0 0) s = tenPlusZero := by
      rw [operationInputs, Inputs.withControl, ha, hb]; rfl
    have hundo : operationInputs (.subD false 0 0) (s.drive { s.inputs with operandA := 0x0 }) =
        undoInputs tenPlusZero := by
      rw [undoInputs, hsum, operationInputs, Inputs.withControl, drive_inputs, hb]; rfl
    refine ⟨true, false, ?_, ?_⟩
    · exact exec_default (by decide) hs (hadd ▸ hsum)
    · exact exec_default (by decide) hs (hundo ▸ hdifference)

/-- Settles O17: the mask slot by slot, the width of a range of sixteen slots, and the two examples evaluated. -/
theorem activeMaskMarksTheRange : Obligations.ActiveMaskMarksTheRange := by
  refine ⟨fun lo hi i hi16 => slot_activeMask lo hi hi16, fun lo hi hwf => ?_, by decide, by decide⟩
  have hhi := hi.isLt
  unfold rangeWidth
  omega

/-- Settles O19. -/
theorem complementerIsFifteensComplement : Obligations.ComplementerIsFifteensComplement :=
  ⟨fun d => ⟨rfl, complementDigit_toNat true d⟩, fun _ => rfl⟩

/-- Settles O21. -/
theorem digitCellIsTheTable : Obligations.DigitCellIsTheTable := by
  intro dec sub da db c
  refine ⟨digitCell_eq_cellTable dec sub da db c, fun ha hb hdec => ?_⟩
  have hc := Bool.toNat_le c
  refine ⟨hdec ▸ digitCell_decimal_le_nine sub c ha hb, fun hadd => ?_, fun hsub => ?_⟩
  · rw [complementDigit_toNat, hadd, if_neg Bool.false_ne_true]
    omega
  · rw [complementDigit_toNat, hsub, if_pos rfl]
    omega

/-- Settles O35: the computed outputs are those of the inputs, and a step that has driven them finds them again. -/
theorem outputsAreAFunctionOfInputs : Obligations.OutputsAreAFunctionOfInputs := by
  refine ⟨fun s s' hs hs' hinputs hwf => ?_, fun s t hs hstep => ?_⟩
  · exact ⟨_, _, step_default hwf hs, step_default (hinputs ▸ hwf) hs', by rw [hinputs], by simp⟩
  · rw [step_eq_transact] at hstep
    obtain ⟨hwf, -⟩ := transact_next hstep
    rw [← step_eq_transact, step_default hwf hs] at hstep
    obtain rfl := Host.Outcome.next.inj hstep
    exact step_default hwf hs

end Settled

end Sys2Proof.Proofs

/-! PROOFS. The family of 41_add_sub.md: each of the four operations is its pseudocode, digit by digit. -/

namespace Sys2Proof.Proofs

open Sys2Proof Sys2Proof.Machine Sys2Proof.Laws

section CellRules

/-! ### The digit and the carry of one cell as a rule on `raw` (R77 to R80) -/

/-- `raw` of the pseudocode, before the decimal correction: a subtrahend digit enters 15's-complemented (R57, R58). -/
def cellRaw (sub : Bool) (da db : Digit) (c : Bool) : Nat :=
  da.toNat + (if sub then 15 - db.toNat else db.toNat) + c.toNat

theorem binaryAdd_complementDigit (sub : Bool) (da db : Digit) (c : Bool) :
    binaryAdd da (complementDigit sub db) c = (cellRaw sub da db c, decide (15 < cellRaw sub da db c)) := by
  rw [binaryAdd, complementDigit_toNat]
  rfl

/-- The cells of a mode pair give the digit `digit raw`, and carry exactly where `raw` exceeds `bound`. -/
def CellFollows (dec sub : Bool) (digit : Nat → Nat) (bound : Nat) : Prop :=
  ∀ (da db : Digit) (c : Bool),
    (digitCell dec sub da db c).1.toNat = digit (cellRaw sub da db c) ∧
      ((digitCell dec sub da db c).2 = true ↔ bound < cellRaw sub da db c)

/-- A rule for the decimal-adjust unit, on what the binary adder gives, is a rule for the cells. -/
theorem cellFollows_of_decimalAdjust {dec sub : Bool} {digit : Nat → Nat} {bound : Nat}
    (hadjust : ∀ raw, (decimalAdjust dec sub raw (decide (15 < raw))).1 % 16 = digit raw ∧
      ((decimalAdjust dec sub raw (decide (15 < raw))).2 = true ↔ bound < raw)) :
    CellFollows dec sub digit bound := by
  intro da db c
  rw [digitCell_digit_toNat, digitCell, binaryAdd_complementDigit]
  exact hadjust (cellRaw sub da db c)

/-- The rule of `ADD.X` and `SUB.X` (R77, R79). -/
theorem cellFollows_hex (sub : Bool) : CellFollows false sub (fun raw => raw % 16) 15 :=
  cellFollows_of_decimalAdjust fun raw => by simp [decimalAdjust_hex]

/-- The rule of `ADD.D` (R78): an uncorrected `raw` is a digit as it stands. -/
theorem cellFollows_decimal_add : CellFollows true false (fun raw => if 9 < raw then (raw + 6) % 16 else raw) 9 :=
  cellFollows_of_decimalAdjust fun raw => by
    by_cases h : 9 < raw
    · simp [decimalAdjust, h]
    · have hmod : raw % 16 = raw := by omega
      have hcarry : ¬15 < raw := by omega
      simp [decimalAdjust, h, hmod, hcarry]

/-- The rule of `SUB.D` (R80): the correction stands where no carry results. -/
theorem cellFollows_decimal_sub :
    CellFollows true true (fun raw => if 15 < raw then raw % 16 else (raw + 10) % 16) 15 :=
  cellFollows_of_decimalAdjust fun raw => by
    by_cases h : 15 < raw <;> simp [decimalAdjust, h]

end CellRules

section RunningCarry

/-! ### The running carry at the two ends of the range (R56, R63) -/

theorem seedCarry_eq_ite (carryIn sub : Bool) : seedCarry carryIn sub = if sub then !carryIn else carryIn := by
  cases sub <;> simp [seedCarry]

theorem externalCarry_eq_ite (running sub : Bool) : externalCarry running sub = if sub then !running else running := by
  cases sub <;> simp [externalCarry]

variable {p : Inputs} (hwf : p.WellFormed)
include hwf

theorem fixedChain_carry_lowIndex : (fixedChain p p.lowIndex.toNat).2 = seedCarry p.carryIn p.subtract := by
  rw [fixedChain_carry p hwf, Nat.sub_self, Nat.zero_min, carryInto]

theorem computedOutputs_carryOut_highIndex :
    (computedOutputs p).carryOut = externalCarry (fixedChain p (p.highIndex.toNat + 1)).2 p.subtract := by
  have hend : p.lowIndex.toNat + rangeWidth p.lowIndex p.highIndex = p.highIndex.toNat + 1 := by
    have : p.lowIndex.toNat ≤ p.highIndex.toNat := hwf
    unfold rangeWidth
    omega
  rw [← carryAt_above_range hwf, hend, carryAt]

end RunningCarry

section DigitByDigit

/-! ### An operation, digit by digit -/

/-- Decimal operations on `Computed` states, and hexadecimal ones on all, compute their outputs (R65, D4). -/
theorem exec_of_computed {i : Instr} {s : State} {o : Outputs} (hwf : i.WellFormed)
    (hcomputed : i.decimalMode = true → Computed s i.lowIndex i.highIndex)
    (ho : computedOutputs (operationInputs i s) = o) : exec i s = .next { s with outputs := some o } := by
  have hnodraw : drawsOutputs s.strictBcd (operationInputs i s) = false :=
    Bool.eq_false_of_not_eq_true fun hdraw =>
      have ⟨hdec, hnot⟩ := (drawsOutputs_eq_true_iff _ _).1 hdraw
      hnot (hcomputed hdec)
  rw [exec_eq_transact, ← ho]
  exact transact_computed hwf hnodraw

/-- The common form of the pseudocode of R77 to R80: the carries `k` between the slots are those of the fixed chain, and
each active slot follows the rule of the cells of the operation. -/
theorem exec_digitByDigit {i : Instr} {digit : Nat → Nat} {bound : Nat}
    (hrule : CellFollows i.decimalMode i.subtract digit bound) {s : State} (hwf : i.WellFormed)
    (hcomputed : i.decimalMode = true → Computed s i.lowIndex i.highIndex) :
    ∃ (r : Word) (k : Nat → Bool),
      exec i s = .next { s with
        outputs := some
          { result := r,
            carryOut := if i.subtract then !k (i.highIndex.toNat + 1) else k (i.highIndex.toNat + 1) } } ∧
      k i.lowIndex.toNat = (if i.subtract then !i.carryIn else i.carryIn) ∧
      (∀ j, Active i.lowIndex i.highIndex j →
        let raw := cellRaw i.subtract (slot s.inputs.operandA j) (slot s.inputs.operandB j) (k j)
        (slot r j).toNat = digit raw ∧ (k (j + 1) = true ↔ bound < raw)) ∧
      InactiveSlotsAgree i.lowIndex i.highIndex r s.inputs.operandA := by
  have hwfPorts : (operationInputs i s).WellFormed := hwf
  have hcarryOut := computedOutputs_carryOut_highIndex hwfPorts
  have hseed := fixedChain_carry_lowIndex hwfPorts
  rw [externalCarry_eq_ite] at hcarryOut
  rw [seedCarry_eq_ite] at hseed
  refine ⟨(computedOutputs (operationInputs i s)).result, fun j => (fixedChain (operationInputs i s) j).2,
    exec_of_computed hwf hcomputed (congrArg (Outputs.mk _) hcarryOut), hseed, fun j hj => ?_,
    computedOutputs_inactive _ hwfPorts⟩
  simp only [computedOutputs_active _ hwfPorts hj, fixedChain_carry_succ (p := operationInputs i s) hj]
  exact hrule _ _ _

end DigitByDigit

section Settled

/-! ### The obligations -/

/-- Settles O12, by the hexadecimal rule of the cells. -/
theorem addXDigitByDigit : Obligations.AddXDigitByDigit := fun s cin hi lo hwf =>
  exec_digitByDigit (i := .addX cin hi lo) (s := s) (cellFollows_hex false) hwf nofun

/-- Settles O13: the rule is that of `ADD.X`, on the complemented digits. -/
theorem subXDigitByDigit : Obligations.SubXDigitByDigit := fun s cin hi lo hwf =>
  exec_digitByDigit (i := .subX cin hi lo) (s := s) (cellFollows_hex true) hwf nofun

/-- Settles O14, by the rule of the addition cells with the correction of 6. -/
theorem addDDigitByDigit : Obligations.AddDDigitByDigit := fun _ cin hi lo hwf hcomputed =>
  exec_digitByDigit (i := .addD cin hi lo) cellFollows_decimal_add hwf fun _ => hcomputed

/-- Settles O15, by the rule of the subtraction cells with the correction of 10. -/
theorem subDDigitByDigit : Obligations.SubDDigitByDigit := fun _ cin hi lo hwf hcomputed =>
  exec_digitByDigit (i := .subD cin hi lo) cellFollows_decimal_sub hwf fun _ => hcomputed

end Settled

end Sys2Proof.Proofs

/-! PROOFS. The family of 42_specializations.md: the two increments are `ADD.D` transactions, and by the decimal addition
law they add one to the value of their range. -/

namespace Sys2Proof.Proofs

open Sys2Proof Sys2Proof.Machine Sys2Proof.Laws

section ZeroOperand

/-! ### Zero as a digit operand (R69, R72) -/

@[simp] theorem rangeValue_zero (base : Nat) (lo hi : SlotIndex) : rangeValue base lo hi 0#64 = 0 := by
  simp [rangeValue_eq_slotsValue, slotsValue]

theorem validDigits_zero (lo hi : SlotIndex) : validDigits lo hi 0#64 = true := by
  rw [validDigits_iff]
  intro i _
  rw [slot_zero]
  decide

end ZeroOperand

section Increments

/-! ### Increments of any digit range (R50, R51) -/

/-- A transaction is every operation whose mode bits, carry-in and range are those that the host drives. -/
theorem transaction_eq_exec (s : State) {p : Inputs} {i : Instr} (hfields : operationInputs i (s.drive p) = p) :
    transaction s p = exec i (s.drive p) := by
  rw [exec_eq_transact, transaction_eq_transact]
  exact congrArg (transact · (s.drive p)) hfields.symm

/-- The input set of an increment: `ADD.D` of zero with a carry-in of one, over a given range. -/
def incrementInputs (hi lo : SlotIndex) (a : Word) : Inputs :=
  { decimalMode := true, subtract := false, operandA := a, operandB := 0, carryIn := true, lowIndex := lo,
    highIndex := hi }

theorem incMInputs_eq_incrementInputs (a : Word) : incMInputs a = incrementInputs 12 3 a := rfl

theorem incXInputs_eq_incrementInputs (a : Word) : incXInputs a = incrementInputs 1 0 a := rfl

theorem transaction_incrementInputs (s : State) (hi lo : SlotIndex) (a : Word) :
    transaction s (incrementInputs hi lo a) = exec (.addD true hi lo) (s.drive (incrementInputs hi lo a)) :=
  transaction_eq_exec s rfl

/-- On valid digits an increment adds one modulo the power of ten of its range (R72), for either `strict_bcd`: the
second operand is zero, so the carry-in is all that is added, and its digits are valid. -/
theorem transaction_incrementInputs_rangeValue (s : State) {hi lo : SlotIndex} {a : Word} (hwf : lo.toNat ≤ hi.toNat)
    (ha : validDigits lo hi a = true) :
    ∃ (r : Word) (c : Bool),
      transaction s (incrementInputs hi lo a) =
        .next { s with inputs := incrementInputs hi lo a, outputs := some { result := r, carryOut := c } } ∧
      rangeValue 10 lo hi r = (rangeValue 10 lo hi a + 1) % 10 ^ rangeWidth lo hi ∧
      InactiveSlotsAgree lo hi r a := by
  obtain ⟨hlaw, -⟩ := decimalAdditionLaw
  obtain ⟨r, c, hexec, hvalue, -, -, hinactive⟩ :=
    hlaw (s.drive (incrementInputs hi lo a)) true hi lo hwf ha (validDigits_zero lo hi)
  refine ⟨r, c, (transaction_incrementInputs s hi lo a).trans hexec, ?_, hinactive⟩
  simpa [incrementInputs] using hvalue

end Increments

section Settled

/-! ### The obligations -/

/-- Settles O30: `INC.M` is the increment of the ten slots 3 to 12. -/
theorem incMAddsOneToTenDigits : Obligations.IncMAddsOneToTenDigits := by
  intro s a ha
  rw [runIncM, incMInputs_eq_incrementInputs]
  obtain ⟨r, c, hnext, hvalue, hinactive⟩ :=
    transaction_incrementInputs_rangeValue s (hi := 12) (lo := 3) (by decide) ha
  refine ⟨r, c, hnext, hvalue, fun i hi16 hout => hinactive i hi16 ?_⟩
  rintro ⟨hlo : 3 ≤ i, hhi : i ≤ 12⟩
  omega

/-- Settles O31: `INC.X` is the increment of the two slots 0 and 1. -/
theorem incXAddsOneToTwoDigits : Obligations.IncXAddsOneToTwoDigits := by
  intro s a ha
  rw [runIncX, incXInputs_eq_incrementInputs]
  obtain ⟨r, c, hnext, hvalue, hinactive⟩ :=
    transaction_incrementInputs_rangeValue s (hi := 1) (lo := 0) (by decide) ha
  refine ⟨r, c, hnext, hvalue, fun i hlo2 hi16 => hinactive i hi16 ?_⟩
  rintro ⟨-, hhi : i ≤ 1⟩
  omega

/-- Settles O32: an increment is a transaction like any other, so that its digits may be any. -/
theorem incrementsAreAddDTransactions : Obligations.IncrementsAreAddDTransactions := by
  refine ⟨fun s a => ?_, fun s a => ?_⟩
  · rw [runIncM, incMInputs_eq_incrementInputs, transaction_incrementInputs]
  · rw [runIncX, incXInputs_eq_incrementInputs, transaction_incrementInputs]

end Settled

end Sys2Proof.Proofs

/-! PROOFS. The family of 60_exceptions.md: a transaction completes exactly on a range that is not inverted, and an
inverted range refuses the whole run. -/

namespace Sys2Proof.Proofs

open Sys2Proof Sys2Proof.Machine Sys2Proof.Laws

section Refusals

/-! ### Completion and refusal of one transaction -/

/-- The range alone decides the refusal, before any arithmetic (R90). -/
theorem transact_inverted {p : Inputs} (s : State) (hinverted : p.highIndex.toNat < p.lowIndex.toNat) :
    transact p s = .refused .invertedRange := by
  rw [transact, addSub_inverted p hinverted]

theorem transact_completes {p : Inputs} (s : State) (hwf : p.WellFormed) :
    ∃ (t : State) (o : Outputs), transact p s = .next t ∧ t.outputs = some o := by
  cases hdraw : drawsOutputs s.strictBcd p with
  | false => exact ⟨_, _, transact_computed hwf hdraw, rfl⟩
  | true => exact ⟨_, _, transact_drawn hwf hdraw, rfl⟩

/-- A transaction completes or is refused; it has no third outcome (R85, R90). -/
theorem transact_ne_fault (p : Inputs) (s : State) (f : Fault) : transact p s ≠ .fault f := by
  rcases transact_cases p s with ⟨-, hrefused⟩ | ⟨-, -, hnext⟩ | ⟨-, -, hnext⟩
  · rw [hrefused]; nofun
  · rw [hnext]; nofun
  · rw [hnext]; nofun

end Refusals

section RefusedRuns

/-! ### Refusal of a run (R87) -/

variable {p : Inputs} {ps : List Inputs} {s t : State} {e : Refusal}

theorem runTransactions_cons_refused (hfirst : transaction s p = .refused e) :
    runTransactions (p :: ps) s = .refused e := by
  simp only [runTransactions, hfirst]

theorem runTransactions_cons_rest_refused (hfirst : transaction s p = .next t)
    (hrest : runTransactions ps t = .refused e) : runTransactions (p :: ps) s = .refused e := by
  simp only [runTransactions, hfirst, hrest]

end RefusedRuns

section Settled

/-! ### The obligations -/

/-- Settles O10: steps and operations are transactions, so that the range alone says which outcome they have. -/
theorem stepCompletesExactlyOnOrderedRanges : Obligations.StepCompletesExactlyOnOrderedRanges := by
  intro s
  rw [step_eq_transact]
  refine ⟨transact_completes s, transact_inverted s, fun i hinverted => ?_, transact_ne_fault s.inputs s⟩
  rw [exec_eq_transact]
  exact transact_inverted s hinverted

/-- Settles O38, by induction on the run: an inverted range at its head refuses it at once, and a head that completes
hands on to a rest that holds the inverted range, whatever state the rest begins in. -/
theorem invertedRangeRefusesTheWholeRun : Obligations.InvertedRangeRefusesTheWholeRun := by
  intro ps
  induction ps with
  | nil => rintro s ⟨p, hmem, -⟩; exact absurd hmem List.not_mem_nil
  | cons q ps ih =>
    rintro s ⟨p, hmem, hp⟩
    rcases Nat.lt_or_ge q.highIndex.toNat q.lowIndex.toNat with hinverted | hwf
    · exact runTransactions_cons_refused
        ((transaction_eq_transact s q).trans (transact_inverted (s.drive q) hinverted))
    · obtain ⟨t, -, hnext, -⟩ := transaction_completes s hwf
      have hrest : p ∈ ps := (List.mem_cons.1 hmem).resolve_left fun heq => absurd hp (heq ▸ Nat.not_lt.2 hwf)
      exact runTransactions_cons_rest_refused hnext (ih t ⟨p, hrest, hp⟩)

end Settled

end Sys2Proof.Proofs

/-! PROOFS. The family of 70_reset_and_hazards.md: reset and driving inputs leave no output on the ports, a transaction
gives the same outputs at any time, and transactions that the host chains through the carry are one longer operation. -/

namespace Sys2Proof.Proofs

open Sys2Proof Sys2Proof.Machine Sys2Proof.Laws

section DrivenPorts

/-! ### Transactions without a draw, and ports without an output (R102, R107) -/

/-- The transaction counterpart of `transact_computed`: besides the outputs, only the driven inputs change. -/
theorem transaction_computed {s : State} {p : Inputs} (hwf : p.WellFormed)
    (hnodraw : drawsOutputs s.strictBcd p = false) :
    transaction s p = .next { s.drive p with outputs := some (computedOutputs p) } :=
  (transaction_eq_transact s p).trans (transact_computed hwf hnodraw)

/-- Ports without an output satisfy the invariant, whatever inputs stand on them. -/
theorem outputsBelongToInputs_of_outputs_eq_none {s : State} (hnone : s.outputs = none) : OutputsBelongToInputs s :=
  fun _ ho => nomatch hnone.symm.trans ho

@[simp] theorem withFetchWord_outputs (s : State) (nbits w : Nat) : (s.withFetchWord nbits w).outputs = none :=
  withControlWord_outputs s (controlWordOfNumber nbits w)

end DrivenPorts

section ChainedRanges

/-! ### A range cut in two (R62, R63, R106) -/

/-- The part of an input set up to slot `m`. -/
def lowerPart (p : Inputs) (m : SlotIndex) : Inputs := { p with highIndex := m }

/-- The part of an input set above slot `m`, as the host drives it after the lower part: on its result, with its carry out
as carry in. -/
def upperPart (p : Inputs) (m : SlotIndex) : Inputs :=
  { p with lowIndex := m + 1, operandA := (computedOutputs (lowerPart p m)).result,
           carryIn := (computedOutputs (lowerPart p m)).carryOut }

/-- The run of digit cells over the range: the result word and the running carry after the highest slot (R62). -/
def rangeChain (p : Inputs) : Word × Bool :=
  ripple p.decimalMode p.subtract p.operandA p.operandB (rangeWidth p.lowIndex p.highIndex) p.lowIndex.toNat p.operandA
    (seedCarry p.carryIn p.subtract)

theorem computedOutputs_eq_rangeChain (p : Inputs) :
    computedOutputs p = { result := (rangeChain p).1, carryOut := externalCarry (rangeChain p).2 p.subtract } := rfl

/-- A carry out that is presented as carry in is the running carry again: both conversions XOR the same mode bit. -/
theorem seedCarry_carryOut (p : Inputs) : seedCarry (computedOutputs p).carryOut p.subtract = (rangeChain p).2 := by
  rw [computedOutputs_eq_rangeChain, seedCarry, externalCarry, Bool.xor_assoc, Bool.xor_self, Bool.xor_false]

/-- Below the highest slot the next index does not wrap around. -/
theorem slotIndex_succ_toNat {m hi : SlotIndex} (hm : m.toNat < hi.toNat) : (m + 1).toNat = m.toNat + 1 := by
  have hhi := hi.isLt
  rw [BitVec.toNat_add]
  exact Nat.mod_eq_of_lt (by change m.toNat + 1 < 16; omega)

variable {p : Inputs} {m : SlotIndex}

/-- The lower part leaves the slots above it to `operand_a`. -/
theorem rangeChain_lowerPart_slot (hlo : p.lowIndex.toNat ≤ m.toNat) {j : Nat} (hj : m.toNat + 1 ≤ j) :
    slot (rangeChain (lowerPart p m)).1 j = slot p.operandA j :=
  have habove : p.lowIndex.toNat + rangeWidth p.lowIndex m ≤ j := by
    unfold rangeWidth
    omega
  ripple_slot_outside _ _ _ _ _ _ _ _ _ (.inr habove)

variable (hm : m.toNat < p.highIndex.toNat)
include hm

theorem upperPart_wellFormed : (upperPart p m).WellFormed := by
  change (m + 1).toNat ≤ p.highIndex.toNat
  rw [slotIndex_succ_toNat hm]
  exact hm

/-- The cells of the whole range are those of the lower part and then those of the upper part, which read slots of
`operand_a` that the lower part has not written. -/
theorem rangeChain_upperPart (hlo : p.lowIndex.toNat ≤ m.toNat) : rangeChain (upperPart p m) = rangeChain p := by
  have hnext := slotIndex_succ_toNat hm
  have hwidth : rangeWidth p.lowIndex p.highIndex = rangeWidth p.lowIndex m + rangeWidth (m + 1) p.highIndex := by
    unfold rangeWidth
    omega
  have hstart : p.lowIndex.toNat + rangeWidth p.lowIndex m = (m + 1).toNat := by
    unfold rangeWidth
    omega
  calc rangeChain (upperPart p m)
      = ripple p.decimalMode p.subtract (rangeChain (lowerPart p m)).1 p.operandB (rangeWidth (m + 1) p.highIndex)
          (m + 1).toNat (rangeChain (lowerPart p m)).1
          (seedCarry (computedOutputs (lowerPart p m)).carryOut p.subtract) := rfl
    _ = ripple p.decimalMode p.subtract p.operandA p.operandB (rangeWidth (m + 1) p.highIndex) (m + 1).toNat
          (rangeChain (lowerPart p m)).1 (rangeChain (lowerPart p m)).2 := by
        rw [← seedCarry_carryOut]
        exact ripple_congr _ _ _ _ _ _ _ _ _ _ fun j hj _ => ⟨rangeChain_lowerPart_slot hlo (hnext ▸ hj), rfl⟩
    _ = rangeChain p := by
        rw [rangeChain, rangeChain, hwidth, ripple_append, hstart]
        rfl

theorem computedOutputs_upperPart (hlo : p.lowIndex.toNat ≤ m.toNat) :
    computedOutputs (upperPart p m) = computedOutputs p := by
  rw [computedOutputs_eq_rangeChain, rangeChain_upperPart hm hlo, computedOutputs_eq_rangeChain]
  rfl

end ChainedRanges

section FullWords

/-! ### Additions over a whole word (R70, R72) -/

/-- An addition over all sixteen slots. -/
def fullWordAddition (dec cin : Bool) (a b : Word) : Inputs :=
  { decimalMode := dec, subtract := false, operandA := a, operandB := b, carryIn := cin, lowIndex := 0,
    highIndex := 15 }

variable {dec : Bool} (cin : Bool) {a b : Word}

theorem fullWordAddition_wellFormed : (fullWordAddition dec cin a b).WellFormed := Nat.zero_le _

variable (hdigits : dec = true → validDigits 0 15 a = true ∧ validDigits 0 15 b = true)
include hdigits

theorem transaction_fullWordAddition (s : State) :
    transaction s (fullWordAddition dec cin a b) =
      .next { s.drive (fullWordAddition dec cin a b) with
        outputs := some (computedOutputs (fullWordAddition dec cin a b)) } :=
  transaction_computed (fullWordAddition_wellFormed cin) (drawsOutputs_of_hasModeDigits _ hdigits)

theorem fullWordAddition_rangeValue :
    rangeValue (digitBase dec) 0 15 a + rangeValue (digitBase dec) 0 15 b + cin.toNat =
      rangeValue (digitBase dec) 0 15 (computedOutputs (fullWordAddition dec cin a b)).result +
        digitBase dec ^ 16 * (computedOutputs (fullWordAddition dec cin a b)).carryOut.toNat :=
  computedOutputs_add_rangeValue (p := fullWordAddition dec cin a b) (fullWordAddition_wellFormed cin) hdigits rfl

end FullWords

section ChainedWords

/-! ### Additions over two words (R106) -/

/-- Two additions chained through the carry add the two-word values: the carry out of the low words stands in both
addition laws and cancels. -/
theorem chained_fullWordAddition_rangeValue {dec : Bool} (cin : Bool) {aLow aHigh bLow bHigh : Word}
    (hlow : dec = true → validDigits 0 15 aLow = true ∧ validDigits 0 15 bLow = true)
    (hhigh : dec = true → validDigits 0 15 aHigh = true ∧ validDigits 0 15 bHigh = true) :
    let base := digitBase dec
    let value := fun w : Word => rangeValue base 0 15 w
    let low := computedOutputs (fullWordAddition dec cin aLow bLow)
    let high := computedOutputs (fullWordAddition dec low.carryOut aHigh bHigh)
    value low.result + base ^ 16 * value high.result + base ^ 32 * high.carryOut.toNat =
      value aLow + base ^ 16 * value aHigh + (value bLow + base ^ 16 * value bHigh) + cin.toNat := by
  intro base value low high
  have hlowSum : value aLow + value bLow + cin.toNat = value low.result + base ^ 16 * low.carryOut.toNat :=
    fullWordAddition_rangeValue cin hlow
  have hhighSum : value aHigh + value bHigh + low.carryOut.toNat =
      value high.result + base ^ 16 * high.carryOut.toNat := fullWordAddition_rangeValue low.carryOut hhigh
  calc value low.result + base ^ 16 * value high.result + base ^ 32 * high.carryOut.toNat
      = value low.result + base ^ 16 * (value high.result + base ^ 16 * high.carryOut.toNat) := by ring
    _ = value low.result + base ^ 16 * low.carryOut.toNat + base ^ 16 * (value aHigh + value bHigh) := by
        rw [← hhighSum]; ring
    _ = value aLow + base ^ 16 * value aHigh + (value bLow + base ^ 16 * value bHigh) + cin.toNat := by
        rw [← hlowSum]; ring

end ChainedWords

section Settled

/-! ### The obligations -/

/-- Settles O28: with `strict_bcd` off none of the three transactions is a draw, and the upper part on the computed
outputs of the lower part computes what the whole range does. -/
theorem chainedRangesEqualTheSingleRange : Obligations.ChainedRangesEqualTheSingleRange := by
  intro s p m hs hlo hm
  have hnodraw : ∀ q, drawsOutputs s.strictBcd q = false := fun q => by rw [hs, drawsOutputs_default]
  have hlower : (lowerPart p m).WellFormed := hlo
  have hwhole : p.WellFormed := hlo.trans hm.le
  exact ⟨_, _, _, computedOutputs (lowerPart p m), computedOutputs p, transaction_computed hlower (hnodraw _), rfl,
    transaction_computed (upperPart_wellFormed hm) (hnodraw _), congrArg some (computedOutputs_upperPart hm hlo),
    transaction_computed hwhole (hnodraw _), rfl⟩

/-- Settles O29: neither addition is a draw, for either `strict_bcd`, and the values are those of the chained sum. -/
theorem chainedWordsAddThirtyTwoDigits : Obligations.ChainedWordsAddThirtyTwoDigits := by
  intro s dec cin aLow aHigh bLow bHigh hvalid
  have hlow : dec = true → validDigits 0 15 aLow = true ∧ validDigits 0 15 bLow = true := fun hdec =>
    have ⟨haLow, _, hbLow, _⟩ := hvalid hdec
    ⟨haLow, hbLow⟩
  have hhigh : dec = true → validDigits 0 15 aHigh = true ∧ validDigits 0 15 bHigh = true := fun hdec =>
    have ⟨_, haHigh, _, hbHigh⟩ := hvalid hdec
    ⟨haHigh, hbHigh⟩
  exact ⟨_, _, _, _, transaction_fullWordAddition cin hlow s, rfl, transaction_fullWordAddition _ hhigh _, rfl,
    chained_fullWordAddition_rangeValue cin hlow hhigh⟩

/-- Settles O34: none of the three states has an output on the ports. -/
theorem resetAndDriveGiveOutputsBelongToInputs : Obligations.ResetAndDriveGiveOutputsBelongToInputs :=
  ⟨outputsBelongToInputs_of_outputs_eq_none reset_outputs,
    fun s p => outputsBelongToInputs_of_outputs_eq_none (drive_outputs s p),
    fun s nbits w => outputsBelongToInputs_of_outputs_eq_none (withFetchWord_outputs s nbits w),
    fun s p nbits w => ⟨reset_outputs, drive_outputs s p, withFetchWord_outputs s nbits w⟩⟩

/-- Settles O36: both transactions answer by the fixed chain of the same input set. -/
theorem resetHasNoEffectOnOutputs : Obligations.ResetHasNoEffectOnOutputs := by
  intro s p hs hwf
  exact ⟨_, _, transaction_default reset_strictBcd hwf, transaction_default hs hwf, rfl, Option.some_ne_none _⟩

end Settled

end Sys2Proof.Proofs
